-- ==== Sys2Proof/Word.lean ====
section
/-!
DEFINITION. The words of the block: bytes, bits, bit-strings (spec/00_scope.md R5, R10 to R13), and the two
word formats of spec/30_encoding.md (R70 and R74).
-/

namespace Sys2Proof

/-- A Byte, a number in 0 to 255 (R10). -/
abbrev Byte := BitVec 8

/-- A Symbol is one byte value: parameter `SYM_W` is 8 (R5). -/
abbrev Symbol := Byte

/-- A Bit; `true` is 1 (R10). -/
abbrev Bit := Bool

/-- A finite sequence of Bits, the first bit first (R12). -/
abbrev BitString := List Bit

/-- A word of one of the two formats: `cmd8` is the 8-bit command word written to `CMD` (R70); `ph4` is the 4-bit
number of a phase (R74), which no host can write. -/
inductive CodeWord where
  | cmd8 (op : BitVec 8)
  | ph4 (ph : BitVec 4)
  deriving DecidableEq, Repr, Inhabited

end Sys2Proof
end

