-- ==== Sys2Proof/Machine/Types.lean ====
section
/-!
DEFINITION. The plain data types State is made of (spec/10_state.md) and the host's actions (spec/30_encoding.md
R90, R91; spec/10_state.md R42).
-/

namespace Sys2Proof.Machine

/-- The values of `PHASE` (R30). -/
inductive Phase where
  | idle | eTrim | eFreq | eBuild | eCode | ePack | dCheck | dExpand | dHdr | dStrip | dScan
  deriving DecidableEq, Repr, Inhabited

/-- The error kinds `STATUS.ERR` holds (R28, R170 to R175). `none` is the spec's `NONE`; `ioFailure` is reserved and
never written by the block (R174). Codes 5 to 7 name no kind (R175). -/
inductive ErrKind where
  | none | emptyAlphabet | missingCodeTable | corruptPadding | ioFailure
  deriving DecidableEq, Repr, Inhabited

/-- A TreeNode (R36): a leaf holds a Symbol and its frequency; an internal node holds the sum of its children's
frequencies and the two children's node numbers. -/
inductive TreeNode where
  | leaf (freq : Nat) (sym : Symbol)
  | internal (freq left right : Nat)
  deriving DecidableEq, Repr, Inhabited

/-- `FREQ`, 256 counters indexed by Symbol value (R38). -/
abbrev FreqTable := Vector Nat 256

/-- `CT`, a map from Symbol to BitString (R32), as a list of entries with strictly rising Symbols. -/
abbrev CodeTable := List (Symbol × BitString)

/-- `RCT`, a map from BitString to Symbol (R33), its entries in the order of their Symbols. -/
abbrev ReverseTable := List (BitString × Symbol)

/-- A byte buffer (R23, R24): the bytes whose value is specified, addresses strictly rising. A byte that is not
listed is unspecified (R43, U2, U3). -/
abbrev Memory := List Host.Cell

/-- What tree construction works on (R36, R37): the node array, and the priority queue, a set of node numbers held
in rising order. -/
structure Forest where
  node : List TreeNode
  pq : List Nat
  deriving DecidableEq, Repr, Inhabited

/-- The encoder's working state (R36 to R38, R40). -/
structure EncoderWork where
  tlen : Nat
  freq : FreqTable
  n : Nat
  node : List TreeNode
  next : Nat
  pq : List Nat
  root : Nat
  bits : BitString
  l : Nat
  pad : Nat
  stream : BitString
  deriving DecidableEq, Repr, Inhabited

/-- The decoder's working state (R41). Its `pad` and the encoder's are two different values (R41). -/
structure DecoderWork where
  dbits : BitString
  pad : Nat
  rest : BitString
  body : BitString
  buf : BitString
  out : List Symbol
  deriving DecidableEq, Repr, Inhabited

/-- The host's accesses other than a command (R42, R90, R91, R200). `readResult` is `READ` and `copy` is `COPY`. -/
inductive HostAccess where
  | reset
  | writeIbuf (i : Nat) (b : Byte)
  | writeIlen (n : Nat)
  | writeObuf (i : Nat) (b : Byte)
  | writeOlen (n : Nat)
  | writeStatus (b : Byte)
  | readIbuf (i : Nat)
  | readIlen
  | readObuf (i : Nat)
  | readOlen
  | readStatus
  | readCmd
  | readResult
  | copy
  deriving DecidableEq, Repr, Inhabited

/-- One host action (R18, R90): a write of a command word to `CMD`, or another access. -/
inductive HostAction where
  | command (c : Byte)
  | access (a : HostAccess)
  deriving DecidableEq, Repr, Inhabited

/-- What a host read returned (R18, R42). -/
inductive Observation where
  | ibuf (i : Nat) (b : Byte)
  | ilen (n : Nat)
  | obuf (i : Nat) (b : Byte)
  | olen (n : Nat)
  | status (b : Byte)
  | cmd (b : Byte)
  | result (status : Byte) (olen : Nat) (obuf : List Byte)
  deriving DecidableEq, Repr, Inhabited

/-- What the next step runs: the instruction of a word, or a host access. -/
inductive Event where
  | word (w : CodeWord)
  | access (a : HostAccess)
  deriving DecidableEq, Repr, Inhabited

end Sys2Proof.Machine
end

