-- ==== Sys2Proof/Syntax.lean ====
section
/-!
DEFINITION. The instructions: one constructor per row of spec/opcode_table.json (spec/30_encoding.md R71, R74).
-/

namespace Sys2Proof

/-- The two commands (R71) and the eleven phases (R74). No row carries an operand: operands are implicit (R72). -/
inductive Instr where
  /-- `COMPRESS`, command word 0x01 (R100). -/
  | compress
  /-- `DECOMPRESS`, command word 0x02 (R140). -/
  | decompress
  /-- Phase `IDLE`, no command runs (R30). -/
  | idle
  /-- Phase `E_TRIM` (R103). -/
  | eTrim
  /-- Phase `E_FREQ` (R106). -/
  | eFreq
  /-- Phase `E_BUILD` (R110). -/
  | eBuild
  /-- Phase `E_CODE` (R118). -/
  | eCode
  /-- Phase `E_PACK` (R125). -/
  | ePack
  /-- Phase `D_CHECK` (R142). -/
  | dCheck
  /-- Phase `D_EXPAND` (R144). -/
  | dExpand
  /-- Phase `D_HDR` (R146). -/
  | dHdr
  /-- Phase `D_STRIP` (R150). -/
  | dStrip
  /-- Phase `D_SCAN` (R152). -/
  | dScan
  deriving DecidableEq, Repr, Inhabited

end Sys2Proof
end

