-- ==== Sys2Proof/Decode.lean ====
section
/-!
DEFINITION. The decoder of command words and phase codes, from the tables of spec/30_encoding.md R71 and R74, then
the encoder from the same tables.
-/

namespace Sys2Proof

open Sys2Proof.Machine

/-- The rows of R71: mask, match, instruction. "A decoder of command words matches all eight bits". -/
def commandRows : List (BitVec 8 × BitVec 8 × Instr) :=
  [(0xFF#8, 0x01#8, .compress), (0xFF#8, 0x02#8, .decompress)]

/-- The rows of R74: mask, match, instruction. -/
def phaseRows : List (BitVec 4 × BitVec 4 × Instr) :=
  [(0xF#4, 0x0#4, .idle), (0xF#4, 0x1#4, .eTrim), (0xF#4, 0x2#4, .eFreq), (0xF#4, 0x3#4, .eBuild),
   (0xF#4, 0x4#4, .eCode), (0xF#4, 0x5#4, .ePack), (0xF#4, 0x8#4, .dCheck), (0xF#4, 0x9#4, .dExpand),
   (0xF#4, 0xA#4, .dHdr), (0xF#4, 0xB#4, .dStrip), (0xF#4, 0xC#4, .dScan)]

/-- The instruction of the first row whose match the masked word equals. -/
def matchRow {w : Nat} (rows : List (BitVec w × BitVec w × Instr)) (x : BitVec w) : Option Instr :=
  (rows.find? fun r => x &&& r.1 == r.2.1).map fun r => r.2.2

/-- The decoder: total, `none` for a reserved command word (R73) and for a code that names no phase (R74). -/
def decode : CodeWord → Option Instr
  | .cmd8 op => matchRow commandRows op
  | .ph4 ph => matchRow phaseRows ph

/-- The word of an instruction (R71, R74). -/
def encode : Instr → CodeWord
  | .compress => .cmd8 0x01#8
  | .decompress => .cmd8 0x02#8
  | .idle => .ph4 0x0#4
  | .eTrim => .ph4 0x1#4
  | .eFreq => .ph4 0x2#4
  | .eBuild => .ph4 0x3#4
  | .eCode => .ph4 0x4#4
  | .ePack => .ph4 0x5#4
  | .dCheck => .ph4 0x8#4
  | .dExpand => .ph4 0x9#4
  | .dHdr => .ph4 0xA#4
  | .dStrip => .ph4 0xB#4
  | .dScan => .ph4 0xC#4

/-- The instruction that runs while `PHASE` has this value (R30, R74). -/
def phaseInstr : Phase → Instr
  | .idle => .idle
  | .eTrim => .eTrim
  | .eFreq => .eFreq
  | .eBuild => .eBuild
  | .eCode => .eCode
  | .ePack => .ePack
  | .dCheck => .dCheck
  | .dExpand => .dExpand
  | .dHdr => .dHdr
  | .dStrip => .dStrip
  | .dScan => .dScan

/-- The phase an instruction is, `none` for the two commands: "A phase is not a command" (R74). -/
def instrPhase : Instr → Option Phase
  | .compress => none
  | .decompress => none
  | .idle => some .idle
  | .eTrim => some .eTrim
  | .eFreq => some .eFreq
  | .eBuild => some .eBuild
  | .eCode => some .eCode
  | .ePack => some .ePack
  | .dCheck => some .dCheck
  | .dExpand => some .dExpand
  | .dHdr => some .dHdr
  | .dStrip => some .dStrip
  | .dScan => some .dScan

/-- How a word of opcode_table.json reads, given its width in bits: a word of at most 4 bits is a phase code. A word
of 5 to 8 bits is a command word where it is one; where it is not, but its upper four bits are zero and its lower four
name a phase, it is that row's 4-bit code widened to a whole byte (log entry 14). No write to `CMD` is read this way:
a command word goes to `decode` as `cmd8`, where R73 holds. -/
def tableWord (nbits w : Nat) : Option CodeWord :=
  if nbits ≤ 4 then
    if w < 16 then some (.ph4 (BitVec.ofNat 4 w)) else none
  else if nbits ≤ 8 ∧ w < 256 then
    if (decode (.cmd8 (BitVec.ofNat 8 w))).isNone && decide (w < 16) then some (.ph4 (BitVec.ofNat 4 w))
    else some (.cmd8 (BitVec.ofNat 8 w))
  else none

/-- The instruction the decoder reads from a word of opcode_table.json. -/
def decodeTableWord (nbits w : Nat) : Option Instr :=
  (tableWord nbits w).bind decode

end Sys2Proof
end

