-- ==== Sys2Proof/Config.lean ====
section
/-!
DEFINITION. What an implementation fixes (spec/00_scope.md R5, R6, R9; spec/10_state.md R39) and the values the spec
leaves `unspecified` (R15; spec/93 U1 to U4, U17). A free value is an opaque constant: no proof can see what it is.
Each takes the draw number it is drawn at (`State.draws`).
-/

namespace Sys2Proof.Config

open Sys2Proof.Machine

/-- `WS`, the Symbols that count as trailing white space (R6, D2). -/
def whiteSpace : List Symbol := [0x09#8, 0x0A#8, 0x0B#8, 0x0C#8, 0x0D#8, 0x20#8]

/-- The key nodes are ordered by: (frequency, node number) (R113). -/
abbrev QueueKey := Nat × Nat

/-- A tie-break order: does the first key pop before the second? A parameter of the tree construction (R9, U11). -/
abbrev Tie := QueueKey → QueueKey → Bool

/-- `TIE` at the value the spec takes: the least frequency, then the least node number (R9, R113, D4). -/
def tie : Tie := fun a b => decide (a.1 < b.1) || (decide (a.1 = b.1) && decide (a.2 < b.2))

/-- An `IBUF` byte nothing has written since reset, at draw `draw` and index `i` (U3, U4). -/
opaque freeIbufByte (draw i : Nat) : Byte

/-- An `OBUF` byte whose value is unspecified: never written, at or beyond `OLEN`, or after an error (U1 to U4). -/
opaque freeObufByte (draw i : Nat) : Byte

/-- `OLEN` after an error (U1, U4). -/
opaque freeOlen (draw : Nat) : Nat

/-- The encoder's working state once a command is over (R35, U17). -/
opaque freeEncoderWork (draw : Nat) : EncoderWork

/-- The decoder's working state once a command is over (R35, U17). -/
opaque freeDecoderWork (draw : Nat) : DecoderWork

/-- The code `E_PACK` would find for a Symbol that has none. R125: the lookup cannot fail inside a command, so this
only gives the phase a result on working state that no command leaves behind (log entry 16). -/
opaque freeCode (draw : Nat) (s : Symbol) : BitString

/-- The table `E_CODE` would derive from a `NODE` that is no tree (log entry 16). -/
opaque freeTable (draw : Nat) : CodeTable

/-- `ROOT` if `E_BUILD` found no leaf although `N > 0` (log entry 16). -/
opaque freeRoot (draw : Nat) : Nat

end Sys2Proof.Config
end

