-- ==== Sys2Proof/Machine/State.lean ====
section
/-!
DEFINITION. The state of the block (spec/10_state.md), why a step can stop, and the state after reset (R43).
-/

namespace Sys2Proof.Machine

/-- The addresses of a buffer's listed bytes are strictly rising. An unlisted byte reads as no fixed value, so no
entry can equal what an unlisted address reads as. -/
def Memory.wf (m : Memory) : Bool := decide (m.Pairwise fun a b => a.1 < b.1)

/-- Everything the spec gives the block, the host's pending actions and reads, and the count of free values drawn. -/
structure State where
  /-- `IBUF`: the bytes the host has written since reset (R23). -/
  ibuf : Memory
  /-- `ILEN` (R21). -/
  ilen : Nat
  /-- `OBUF`: the bytes whose value is specified (R24). -/
  obuf : Memory
  /-- `OLEN` (R22). -/
  olen : Nat
  /-- `STATUS.DONE` (R27). -/
  done : Bool
  /-- `STATUS.TABLE_VALID` (R29). -/
  tableValid : Bool
  /-- `STATUS.ERR` (R28). -/
  err : ErrKind
  /-- `CT` (R32). -/
  ct : CodeTable
  /-- `RCT` (R33). -/
  rct : ReverseTable
  /-- `PHASE` (R30). -/
  phase : Phase
  /-- The encoder's working state (R35). -/
  enc : EncoderWork
  /-- The decoder's working state (R35). -/
  dec : DecoderWork
  /-- The host's actions still to come (R18, R90): the model's own field. -/
  script : List HostAction
  /-- What the host's reads have returned, oldest first (R18): the model's own field. -/
  seen : List Observation
  /-- How many free values have been drawn (R15 `unspecified`): the model's own field. -/
  draws : Nat
  deriving DecidableEq, Repr

/-- Why the machine would stop with a fault: there is no reason. The spec uses no fault: every error is a defined
outcome (R178) and every command ends (R216). Raised by nobody. -/
inductive Fault where
  deriving DecidableEq, Repr

/-- Why a step has no meaning. -/
inductive Refusal where
  /-- An instruction that has no meaning yet; raised by a refused arm of `exec` only. Safe. -/
  | notModelled (mnemonic : String)
  /-- A word that selects no operation was written to `CMD` (R73, U5: "refuse"); raised by `step`. Safe. -/
  | reservedWord (w : CodeWord)
  deriving DecidableEq, Repr

/-- Encoder working state at reset: R43 gives "no value"; zeros and empty sequences, log entry 7. -/
def EncoderWork.reset : EncoderWork :=
  { tlen := 0, freq := Vector.replicate 256 0, n := 0, node := [], next := 0, pq := [], root := 0, bits := [], l := 0,
    pad := 0, stream := [] }

/-- Decoder working state at reset: R43 gives "no value"; zero and empty sequences, log entry 7. -/
def DecoderWork.reset : DecoderWork :=
  { dbits := [], pad := 0, rest := [], body := [], buf := [], out := [] }

/-- The block right after reset (R43). The buffers list no byte: every byte is unspecified. -/
def State.reset : State :=
  { ibuf := [], ilen := 0, obuf := [], olen := 0, done := false, tableValid := false, err := .none, ct := [],
    rct := [], phase := .idle, enc := EncoderWork.reset, dec := DecoderWork.reset, script := [], seen := [],
    draws := 0 }

end Sys2Proof.Machine
end

