-- ==== Sys2Proof/Machine/Flags.lean ====
section
/-!
DEFINITION. `STATUS`: the error codes, the value a read returns, and what a command's start, its commit and a `raise`
do to the flags (spec/10_state.md R26 to R29; spec/60_exceptions.md R175, R176).
-/

namespace Sys2Proof.Machine

/-- The number of an error kind in `STATUS.ERR` (R28, R175). -/
def ErrKind.code : ErrKind → Nat
  | .none => 0
  | .emptyAlphabet => 1
  | .missingCodeTable => 2
  | .corruptPadding => 3
  | .ioFailure => 4

/-- What a read of `STATUS` returns: `DONE + 2*TABLE_VALID + 4*ERR`, bits 7:5 zero (R26). -/
def State.status (s : State) : Byte := BitVec.ofNat 8 (s.done.toNat + 2 * s.tableValid.toNat + 4 * s.err.code)

/-- Every command clears `DONE` and `ERR` when it starts (R27, R28, R101, R141). -/
def State.clearFlags (s : State) : State := { s with done := false, err := .none }

/-- A command that ends without error sets `DONE` (R27); `ERR` stays as it is (R129, R156). -/
def State.setDone (s : State) : State := { s with done := true }

/-- `COMPRESS` sets `TABLE_VALID` at its commit (R29, R129). -/
def State.setTableValid (s : State) : State := { s with tableValid := true }

/-- `raise` writes the kind's code to `ERR`; `DONE` stays as it is (R176). -/
def State.setErr (k : ErrKind) (s : State) : State := { s with err := k }

end Sys2Proof.Machine
end

