-- ==== Sys2Proof/Machine/Operands.lean ====
section
/-!
DEFINITION. The notation of spec/00_scope.md R11 to R14 and the reading of a command's implicit operands
(spec/30_encoding.md R72): bytes of the buffers, the trimmed input, table entries.
-/

namespace Sys2Proof.Machine

/-- `bits8(v)`: the eight bits of a Byte, most significant first (R13). -/
def bits8 (v : Byte) : BitString :=
  [v.getLsbD 7, v.getLsbD 6, v.getLsbD 5, v.getLsbD 4, v.getLsbD 3, v.getLsbD 2, v.getLsbD 1, v.getLsbD 0]

/-- `val(b)`: the number a BitString spells with its first bit most significant (R13). -/
def val (b : BitString) : Nat := b.foldl (fun acc x => 2 * acc + x.toNat) 0

/-- `s[i..j)`: the elements at indices `i` to `j-1`, empty when `i >= j` (R11). -/
def slice {α : Type} (s : List α) (i j : Nat) : List α := (s.drop i).take (j - i)

/-- The value of a buffer byte, `none` where it is unspecified (R42). -/
def Memory.read? (m : Memory) (i : Nat) : Option Byte := m.lookup i

/-- `IBUF[i]` as the block reads it. A byte nothing has written since reset has any value (U3), the same one
throughout a command (log entry 5). -/
def State.ibufByte (s : State) (i : Nat) : Byte := (s.ibuf.read? i).getD (Config.freeIbufByte s.draws i)

/-- `IBUF[0..n)`. -/
def State.inputBytes (s : State) (n : Nat) : List Byte := (List.range n).map s.ibufByte

/-- `IBUF[0..ILEN)`, the input of a command (R72). -/
def State.input (s : State) : List Byte := s.inputBytes s.ilen

/-- Is a Symbol in `WS` (R6)? -/
def isWhite (b : Symbol) : Bool := Config.whiteSpace.contains b

/-- `trim_len` of R103: drop trailing `WS` Symbols one at a time. -/
def trimLen (rd : Nat → Byte) : Nat → Nat
  | 0 => 0
  | n + 1 => if isWhite (rd n) then trimLen rd n else n + 1

/-- `T = IBUF[0..TLEN)` with the `TLEN` that `E_TRIM` assigned (R103). -/
def State.trimmed (s : State) : List Symbol := s.inputBytes s.enc.tlen

/-- The trimmed input as a function of `IBUF[0..ILEN)` alone (R100, R103). -/
def State.trimmedInput (s : State) : List Symbol := s.inputBytes (trimLen s.ibufByte s.ilen)

/-- `FREQ[s]` (R38). -/
def FreqTable.count (f : FreqTable) (s : Symbol) : Nat := f[s.toNat]

/-- Every Symbol in ascending order of value (R112). Irreducible: the elaborator is not to list all 256 of them. -/
@[irreducible] def allSymbols : List Symbol := (List.range 256).map (BitVec.ofNat 8)

/-- The Symbols with a counter above 0, ascending: the FrequencyMap's keys (R106). One walk over the Symbols and the
counters side by side; `alphabet_eq_filter` says it in one line. -/
def alphabet (f : FreqTable) : List Symbol :=
  ((allSymbols.zip f.toList).filter fun e => 0 < e.2).map Prod.fst

/-- `CT[s]`, `none` for a Symbol outside the domain (R32). -/
def CodeTable.code? (ct : CodeTable) (s : Symbol) : Option BitString := ct.lookup s

/-- `RCT[b]`, `none` where `b` is not in the domain; length and bits both count (R33, R84). -/
def ReverseTable.symbol? (rct : ReverseTable) (b : BitString) : Option Symbol := rct.lookup b

/-- The code `E_PACK` takes for a Symbol (R125). -/
def State.codeOf (s : State) (sym : Symbol) : BitString := (s.ct.code? sym).getD (Config.freeCode s.draws sym)

end Sys2Proof.Machine
end

