-- ==== Sys2Proof/Machine/Ops.lean ====
section
/-!
DEFINITION. The operations the meanings share: byte buffers, `raise` and the end of a command
(spec/60_exceptions.md R176, R180), the phase path (R30), and how a step finds what to run (R17, R25).
-/

namespace Sys2Proof.Machine

/-- `space[i] <- b`: the byte becomes specified, every other byte stays (R15). -/
def Memory.write (m : Memory) (i : Nat) (b : Byte) : Memory :=
  match m with
  | [] => [(i, b)]
  | c :: r => if i < c.1 then (i, b) :: c :: r else if i = c.1 then (i, b) :: r else c :: Memory.write r i b

/-- The buffer cells that hold these bytes at indices `i`, `i+1`, and so on. -/
def cellsFrom (i : Nat) : List Byte → Memory
  | [] => []
  | b :: r => (i, b) :: cellsFrom (i + 1) r

/-- A buffer whose bytes from index 0 on are these and whose other bytes are unspecified (R24). -/
def Memory.ofBytes (bs : List Byte) : Memory := cellsFrom 0 bs

/-- Write bytes to indices `i`, `i+1`, and so on (R90 `LOAD`). -/
def Memory.writeBytes (m : Memory) (i : Nat) : List Byte → Memory
  | [] => m
  | b :: r => Memory.writeBytes (m.write i b) (i + 1) r

/-- The start of a command: clear `DONE` and `ERR` and enter the first phase of its path (R30, R101, R141). -/
def State.start (p : Phase) (s : State) : State := { s.clearFlags with phase := p }

/-- A command is over: its working state has no value any more (R35, R176 (4), U17) and `PHASE` is `IDLE`. -/
def State.finish (s : State) : State :=
  { s with enc := Config.freeEncoderWork s.draws, dec := Config.freeDecoderWork s.draws, phase := .idle,
           draws := s.draws + 1 }

/-- `raise k` (R176): `ERR` gets the kind's code, `DONE` stays, every `OBUF` byte and `OLEN` become unspecified, the
working state is discarded, `PHASE` is `IDLE`; nothing else changes and nothing is saved. -/
def State.raise (k : ErrKind) (s : State) : State :=
  State.finish { State.setErr k s with obuf := [], olen := Config.freeOlen s.draws }

/-- After an error there is no handler and no return (R180): the command is over and a later phase does not run
(R176). So each phase after the first runs only if the one before it left the block in a phase. -/
def State.andThen (f : State → State) (s : State) : State := if s.phase = .idle then s else f s

/-- Write the result of a command to `OBUF` and `OLEN`: bytes beyond `OLEN` become unspecified (R24, R57). -/
def State.output (bs : List Byte) (s : State) : State := { s with obuf := Memory.ofBytes bs, olen := bs.length }

/-- What the next step runs, and the state it runs in. While `PHASE` is not `IDLE` the block runs that phase and the
host has no move (R16, R17, R213). In `IDLE` the host's next action happens: a write to `CMD` gives the word written
(R25). With no action left the block stays in `IDLE`. -/
def State.fetch (s : State) : Event × State :=
  if s.phase = .idle then
    match s.script with
    | [] => (.word (encode (phaseInstr .idle)), s)
    | .command c :: r => (.word (.cmd8 c), { s with script := r })
    | .access a :: r => (.access a, { s with script := r })
  else (.word (encode (phaseInstr s.phase)), s)

/-- `s`, made ready so that the next step runs the instruction of this word: a phase code goes to `PHASE` (with no host
action pending where it is `IDLE`, which only runs then); a command word becomes the host's next action. -/
def State.place (w : CodeWord) (s : State) : State :=
  match w, (decode w).bind instrPhase with
  | .ph4 _, some .idle => { s with phase := .idle, script := [] }
  | .ph4 _, some p => { s with phase := p }
  | .ph4 _, none => { s with phase := .idle, script := .command 0x00#8 :: s.script }
  | .cmd8 c, _ => { s with phase := .idle, script := .command c :: s.script }

end Sys2Proof.Machine
end

