-- ==== Sys2Proof/Machine/Tree.lean ====
section
/-!
DEFINITION. The encoder's functions on data: counting, the priority queue, tree construction, code derivation and bit
packing (spec/40_encoder.md). Every function is of its named inputs alone (spec/90_conflicts.md C6). The tie-break
order is an argument (R9); the machine passes `Config.tie`.
-/

namespace Sys2Proof.Machine

/-- `count` of R106: `FREQ[s]` is the number of indices at which the Symbol occurs. Irreducible, as
`allSymbols` is. -/
@[irreducible] def countSymbols (t : List Symbol) : FreqTable :=
  ⟨((List.range 256).map fun i => t.count (BitVec.ofNat 8 i)).toArray, by simp⟩

/-- `NODE[i].freq` of a node (R36). -/
def TreeNode.freq : TreeNode → Nat
  | .leaf f _ => f
  | .internal f _ _ => f

/-- `NODE[i].freq`. Numbers in the queue are numbers of nodes, so the default is never taken in `buildTree`. -/
def nodeFreq (node : List TreeNode) (i : Nat) : Nat := (node[i]?.map TreeNode.freq).getD 0

/-- The key a node is ordered by in the queue (R113). -/
def nodeKey (node : List TreeNode) (i : Nat) : Config.QueueKey := (nodeFreq node i, i)

/-- The member of a list of node numbers that pops before every other one. -/
def least (tie : Config.Tie) (node : List TreeNode) : List Nat → Option Nat
  | [] => none
  | i :: r =>
    match least tie node r with
    | none => some i
    | some j => if tie (nodeKey node j) (nodeKey node i) then some j else some i

/-- `popmin` (R113): the member with the least key, and the queue without it. -/
def popMin (tie : Config.Tie) (node : List TreeNode) (pq : List Nat) : Option (Nat × List Nat) :=
  (least tie node pq).map fun i => (i, pq.erase i)

/-- One leaf per Symbol that occurs, in ascending order of Symbol value (R111, R112). -/
def leaves (f : FreqTable) : List TreeNode := (alphabet f).map fun s => .leaf (f.count s) s

/-- The leaves, numbered from 0, all of them in the queue (R110 to R112). -/
def leafForest (f : FreqTable) : Forest := { node := leaves f, pq := List.range (leaves f).length }

/-- One merge (R114): pop `A`, then `B`, and create the node `NEXT` with `left = A`, `right = B`. `NEXT` is the number
of nodes created so far (R112), above every number in the queue. `none` when fewer than two members are left. -/
def mergeStep (tie : Config.Tie) (f : Forest) : Option Forest :=
  match popMin tie f.node f.pq with
  | none => none
  | some (a, q) =>
    match popMin tie f.node q with
    | none => none
    | some (b, q') =>
      some { node := f.node ++ [.internal (nodeFreq f.node a + nodeFreq f.node b) a b], pq := q' ++ [f.node.length] }

/-- At most `k` merges, while the queue has more than one member (R110). -/
def mergeLoop (tie : Config.Tie) : Nat → Forest → Forest
  | 0, f => f
  | k + 1, f =>
    match mergeStep tie f with
    | none => f
    | some f' => mergeLoop tie k f'

/-- The tree of a frequency table (R110 to R116). Each merge takes one member off the queue (R114), so the queue's
length bounds the merges. -/
def buildTree (tie : Config.Tie) (f : FreqTable) : Forest :=
  mergeLoop tie (leafForest f).pq.length (leafForest f)

/-- `CT[s] <- c`: add or replace one entry (R14). -/
def CodeTable.set (ct : CodeTable) (s : Symbol) (c : BitString) : CodeTable :=
  match ct with
  | [] => [(s, c)]
  | e :: r => if s.toNat < e.1.toNat then (s, c) :: e :: r else if s = e.1 then (s, c) :: r
    else e :: CodeTable.set r s c

/-- `assign(i, p)` of R118, to at most `k` levels: a leaf gets the path so far, `0` is the left branch, `1` the right.
`none` where the walk leaves `NODE` or goes on for more levels than it has nodes. -/
def assign (node : List TreeNode) : Nat → Nat → BitString → CodeTable → Option CodeTable
  | 0, _, _, _ => none
  | k + 1, i, p, ct =>
    match node[i]? with
    | none => none
    | some (.leaf _ s) => some (ct.set s p)
    | some (.internal _ l r) => (assign node k l (p ++ [false]) ct).bind (assign node k r (p ++ [true]))

/-- `codes` of R118, the map `CT`: a root that is a leaf gets `"0"` (R119). -/
def codes (node : List TreeNode) (root : Nat) : Option CodeTable :=
  match node[root]? with
  | none => none
  | some (.leaf _ s) => some (CodeTable.set [] s [false])
  | some (.internal _ _ _) => assign node node.length root [] []

/-- `RCT`, the inverse of `CT` (R33, R120). -/
def invert (ct : CodeTable) : ReverseTable := ct.map fun e => (e.2, e.1)

/-- `PAD` of R126: the bits needed to reach a multiple of 8, 0 when there already. -/
def padAmount (l : Nat) : Nat := (8 - l % 8) % 8

/-- `STREAM` of R127: header, coded bits, padding zeros. -/
def streamOf (pad : Nat) (bits : BitString) : BitString :=
  bits8 (BitVec.ofNat 8 pad) ++ bits ++ List.replicate pad false

/-- Step (e) of R127: consecutive groups of eight bits, each read most significant bit first. -/
def toBytes (stream : BitString) : List Byte :=
  (List.range (stream.length / 8)).map fun j => BitVec.ofNat 8 (val (slice stream (8 * j) (8 * j + 8)))

/-- The greedy scan of R152 from a candidate buffer and the Symbols emitted so far: every bit once, left to right, the
whole buffer compared after each. -/
def scan (rct : ReverseTable) : BitString → BitString → List Symbol → BitString × List Symbol
  | [], buf, out => (buf, out)
  | b :: r, buf, out =>
    match rct.symbol? (buf ++ [b]) with
    | some s => scan rct r [] (out ++ [s])
    | none => scan rct r (buf ++ [b]) out

end Sys2Proof.Machine
end

