-- ==== Sys2Proof/Machine/Decoder.lean ====
section
/-!
DEFINITION. `DECOMPRESS` and its phases (spec/41_decoder.md). Each phase is a function of the state; `exec…` is the
meaning of its row of the opcode table.
-/

namespace Sys2Proof.Machine

/-- `D_CHECK` (R142): `MissingCodeTable` when no table is held. -/
def dCheck (s : State) : State :=
  if s.tableValid = false then s.raise .missingCodeTable else { s with phase := .dExpand }

/-- `D_EXPAND` (R144): every byte of `IBUF[0..ILEN)` to its eight bits, in byte order. -/
def dExpand (s : State) : State :=
  { s with dec := { s.dec with dbits := s.input.flatMap bits8 }, phase := .dHdr }

/-- `D_HDR` (R146): `CorruptPadding` when there is no header byte; otherwise `PAD` is its value, all eight bits. -/
def dHdr (s : State) : State :=
  if s.dec.dbits.length < 8 then s.raise .corruptPadding
  else { s with dec := { s.dec with pad := val (slice s.dec.dbits 0 8) }, phase := .dStrip }

/-- `REST`: the bits after the header (R150). -/
def dropHeader (s : State) : State :=
  { s with dec := { s.dec with rest := slice s.dec.dbits 8 s.dec.dbits.length } }

/-- `BODY`: `REST` without its last `PAD` bits (R150). -/
def dropPadding (s : State) : State :=
  { s with dec := { s.dec with body := slice s.dec.rest 0 (s.dec.rest.length - s.dec.pad) }, phase := .dScan }

/-- `D_STRIP` (R150): `CorruptPadding` when `PAD` exceeds the bits after the header. -/
def dStrip (s : State) : State :=
  if s.dec.pad > (dropHeader s).dec.rest.length then (dropHeader s).raise .corruptPadding
  else dropPadding (dropHeader s)

/-- The scan loop of `D_SCAN` (R152): `BUF` and `OUT`. -/
def scanBody (s : State) : State :=
  { s with dec := { s.dec with buf := (scan s.rct s.dec.body [] []).1, out := (scan s.rct s.dec.body [] []).2 } }

/-- The commit of `DECOMPRESS` (R156). -/
def commitDecompress (s : State) : State := (s.output s.dec.out).setDone.finish

/-- `D_SCAN` (R152, R154, R156): `CorruptPadding` when a candidate is left over, otherwise the result. -/
def dScan (s : State) : State :=
  if (scanBody s).dec.buf ≠ [] then (scanBody s).raise .corruptPadding else commitDecompress (scanBody s)

/-- `DECOMPRESS` (R140, R141): the five phases in order, each once, until one raises. -/
def decompress (s : State) : State :=
  State.andThen dScan (State.andThen dStrip (State.andThen dHdr (State.andThen dExpand (State.andThen dCheck
    (s.start .dCheck)))))

/-- The meaning of `D_CHECK` (R142). -/
def execDCheck (s : State) : Host.Outcome State Fault Refusal := .next (dCheck s)

/-- The meaning of `D_EXPAND` (R144). -/
def execDExpand (s : State) : Host.Outcome State Fault Refusal := .next (dExpand s)

/-- The meaning of `D_HDR` (R146). -/
def execDHdr (s : State) : Host.Outcome State Fault Refusal := .next (dHdr s)

/-- The meaning of `D_STRIP` (R150). -/
def execDStrip (s : State) : Host.Outcome State Fault Refusal := .next (dStrip s)

/-- The meaning of `D_SCAN` (R152). -/
def execDScan (s : State) : Host.Outcome State Fault Refusal := .next (dScan s)

/-- The meaning of `DECOMPRESS` (R140): one step for the whole command (R17). -/
def execDecompress (s : State) : Host.Outcome State Fault Refusal := .next (decompress s)

end Sys2Proof.Machine
end

