-- ==== Sys2Proof/Machine/Encoder.lean ====
section
/-!
DEFINITION. `COMPRESS` and its phases (spec/40_encoder.md). Each phase is a function of the state; `exec…` is the
meaning of its row of the opcode table.
-/

namespace Sys2Proof.Machine

/-- `E_TRIM` (R103): `TLEN <- trim_len(IBUF, ILEN)`. -/
def eTrim (s : State) : State :=
  { s with enc := { s.enc with tlen := trimLen s.ibufByte s.ilen }, phase := .eFreq }

/-- `E_FREQ` (R106): `FREQ` counts the Symbols of `T`; `N` is how many occur. -/
def eFreq (s : State) : State :=
  { s with enc := { s.enc with freq := countSymbols s.trimmed, n := (alphabet (countSymbols s.trimmed)).length },
           phase := .eBuild }

/-- The leaves are created, numbered and put in `PQ`; `NEXT` is their number (R110 to R112). -/
def createLeaves (s : State) : State :=
  { s with enc := { s.enc with node := (leafForest s.enc.freq).node, pq := (leafForest s.enc.freq).pq,
                               next := (leafForest s.enc.freq).node.length } }

/-- The merge loop of R110, R114: it runs until `PQ` has one member. -/
def mergeNodes (s : State) : State :=
  let f := mergeLoop Config.tie s.enc.pq.length { node := s.enc.node, pq := s.enc.pq }
  { s with enc := { s.enc with node := f.node, pq := f.pq, next := f.node.length } }

/-- `ROOT <-` the one member of `PQ` (R115). -/
def takeRoot (s : State) : State :=
  { s with enc := { s.enc with root := (s.enc.pq.head?).getD (Config.freeRoot s.draws) } }

/-- `E_BUILD` (R110): `EmptyAlphabet` when `N = 0`, before anything else; otherwise the tree. -/
def eBuild (s : State) : State :=
  if s.enc.n = 0 then s.raise .emptyAlphabet
  else { takeRoot (mergeNodes (createLeaves s)) with phase := .eCode }

/-- The table `E_CODE` derives from `NODE` and `ROOT` (R118). -/
def State.derivedTable (s : State) : CodeTable :=
  (codes s.enc.node s.enc.root).getD (Config.freeTable s.draws)

/-- `E_CODE` (R118, R120): the new `CT` and its inverse replace the old ones. -/
def eCode (s : State) : State :=
  { s with ct := s.derivedTable, rct := invert s.derivedTable, phase := .ePack }

/-- Step (a) of `E_PACK` (R125): `BITS` and `L`. -/
def packBits (s : State) : State :=
  { s with enc := { s.enc with bits := s.trimmed.flatMap s.codeOf, l := (s.trimmed.flatMap s.codeOf).length } }

/-- Step (b) of `E_PACK` (R126): `PAD`. -/
def packPad (s : State) : State := { s with enc := { s.enc with pad := padAmount s.enc.l } }

/-- Steps (c) and (d) of `E_PACK` (R127): `STREAM`. -/
def packStream (s : State) : State :=
  { s with enc := { s.enc with stream := streamOf s.enc.pad s.enc.bits } }

/-- Step (e) of `E_PACK` (R127): `OBUF` and `OLEN`. -/
def packBytes (s : State) : State := s.output (toBytes s.enc.stream)

/-- The commit of `COMPRESS` (R129). -/
def commitCompress (s : State) : State := s.setTableValid.setDone.finish

/-- `E_PACK` (R125 to R129). -/
def ePack (s : State) : State := commitCompress (packBytes (packStream (packPad (packBits s))))

/-- `COMPRESS` (R100, R101): the five phases in order, each once, unless `E_BUILD` raises. -/
def compress (s : State) : State :=
  State.andThen ePack (State.andThen eCode (State.andThen eBuild (State.andThen eFreq (State.andThen eTrim
    (s.start .eTrim)))))

/-- The meaning of `E_TRIM` (R103). -/
def execETrim (s : State) : Host.Outcome State Fault Refusal := .next (eTrim s)

/-- The meaning of `E_FREQ` (R106). -/
def execEFreq (s : State) : Host.Outcome State Fault Refusal := .next (eFreq s)

/-- The meaning of `E_BUILD` (R110). -/
def execEBuild (s : State) : Host.Outcome State Fault Refusal := .next (eBuild s)

/-- The meaning of `E_CODE` (R118). -/
def execECode (s : State) : Host.Outcome State Fault Refusal := .next (eCode s)

/-- The meaning of `E_PACK` (R125). -/
def execEPack (s : State) : Host.Outcome State Fault Refusal := .next (ePack s)

/-- The meaning of `COMPRESS` (R100): one step for the whole command (R17). -/
def execCompress (s : State) : Host.Outcome State Fault Refusal := .next (compress s)

end Sys2Proof.Machine
end

