-- ==== Sys2Proof/Machine/Sequencer.lean ====
section
/-!
DEFINITION. The phase `IDLE` (spec/10_state.md R30) and the host's accesses that are no command: reset
(spec/70_reset_and_hazards.md R200), the reads and writes of spec/10_state.md R42, and `READ` and `COPY`
(spec/30_encoding.md R90, R91).
-/

namespace Sys2Proof.Machine

/-- `IDLE`: no command runs; the block holds its state until the host acts (R30, R184). -/
def execIdle (s : State) : Host.Outcome State Fault Refusal := .next s

/-- Reset (R200): every piece of the block's state takes its value of R43. What the host still has to do and has
already read is the host's and stays; the next free values are new ones (log entry 18). -/
def State.applyReset (s : State) : State :=
  { State.reset with script := s.script, seen := s.seen, draws := s.draws + 1 }

/-- Note what a host read returned. -/
def State.observe (o : Observation) (s : State) : State := { s with seen := s.seen ++ [o] }

/-- Note what a host read returned that may have met an unspecified value: the next such read meets a new one, for two
reads "need not agree" (R42, U4). -/
def State.observeFree (o : Observation) (s : State) : State := { s.observe o with draws := s.draws + 1 }

/-- `OBUF[i]` as a host read sees it: any Byte where it is unspecified (R42). -/
def State.obufByte (s : State) (i : Nat) : Byte := (s.obuf.read? i).getD (Config.freeObufByte s.draws i)

/-- `OLEN` as a host read sees it: after an error any value, at each read (R22, R42, U4). -/
def State.olenRead (s : State) : Nat := if s.err = .none then s.olen else Config.freeOlen s.draws

/-- `OBUF[0..OLEN)` as a host read sees it. -/
def State.resultRead (s : State) : List Byte := (List.range s.olenRead).map s.obufByte

/-- `LOAD` (R90): the bytes to `IBUF` from index 0 on, their number to `ILEN`. -/
def State.load (bs : List Byte) (s : State) : State := { s with ibuf := s.ibuf.writeBytes 0 bs, ilen := bs.length }

/-- `READ` (R90): `STATUS`, `OLEN` and `OBUF[0..OLEN)`. -/
def State.readResult (s : State) : State := s.observeFree (.result s.status s.olenRead s.resultRead)

/-- What a host access does (R42). A read changes nothing of the block's; a write to a read-only place has no effect. -/
def hostAccess (a : HostAccess) (s : State) : State :=
  match a with
  | .reset => s.applyReset
  | .writeIbuf i b => { s with ibuf := s.ibuf.write i b }
  | .writeIlen n => { s with ilen := n }
  | .writeObuf _ _ => s
  | .writeOlen _ => s
  | .writeStatus _ => s
  | .readIbuf i => s.observeFree (.ibuf i (s.ibufByte i))
  | .readIlen => s.observe (.ilen s.ilen)
  | .readObuf i => s.observeFree (.obuf i (s.obufByte i))
  | .readOlen => s.observeFree (.olen s.olenRead)
  | .readStatus => s.observe (.status s.status)
  | .readCmd => s.observe (.cmd 0x00#8)
  | .readResult => s.readResult
  | .copy => s.readResult.load s.resultRead

/-- `LOAD <bytes>` as single host writes (R90). -/
def loadActions (bs : List Byte) : List HostAction :=
  (bs.zipIdx.map fun e => HostAction.access (.writeIbuf e.2 e.1)) ++ [HostAction.access (.writeIlen bs.length)]

/-- `COMPRESS <bytes>` (R91). -/
def compressActions (bs : List Byte) : List HostAction :=
  loadActions bs ++ [HostAction.command 0x01#8, HostAction.access .readResult]

/-- `DECOMPRESS <bytes>` (R91). -/
def decompressActions (bs : List Byte) : List HostAction :=
  loadActions bs ++ [HostAction.command 0x02#8, HostAction.access .readResult]

/-- `ROUNDTRIP <bytes>` (R91). -/
def roundTripActions (bs : List Byte) : List HostAction :=
  compressActions bs ++ [HostAction.access .copy, HostAction.command 0x02#8, HostAction.access .readResult]

end Sys2Proof.Machine
end

