-- ==== Sys2Proof/Machine/Dispatch.lean ====
section
/-!
DEFINITION. One arm per row of spec/opcode_table.json, each a call of its meaning.
-/

namespace Sys2Proof.Machine

def exec (i : Instr) (s : State) : Host.Outcome State Fault Refusal :=
  match i with
  | .compress => Sys2Proof.Machine.execCompress s
  | .decompress => Sys2Proof.Machine.execDecompress s
  | .idle => Sys2Proof.Machine.execIdle s
  | .eTrim => Sys2Proof.Machine.execETrim s
  | .eFreq => Sys2Proof.Machine.execEFreq s
  | .eBuild => Sys2Proof.Machine.execEBuild s
  | .eCode => Sys2Proof.Machine.execECode s
  | .ePack => Sys2Proof.Machine.execEPack s
  | .dCheck => Sys2Proof.Machine.execDCheck s
  | .dExpand => Sys2Proof.Machine.execDExpand s
  | .dHdr => Sys2Proof.Machine.execDHdr s
  | .dStrip => Sys2Proof.Machine.execDStrip s
  | .dScan => Sys2Proof.Machine.execDScan s

end Sys2Proof.Machine
end

