-- ==== Sys2Proof/Machine/Step.lean ====
section
/-!
DEFINITION. One step (spec/00_scope.md R17): run the instruction of the word fetched, or a host access.
-/

namespace Sys2Proof.Machine

/-- The block's or the host's next move. A word that selects no operation is refused (R73). -/
def step (s : State) : Host.Outcome State Fault Refusal :=
  match s.fetch with
  | (.word w, t) =>
    match decode w with
    | some i => exec i t
    | none => .refused (.reservedWord w)
  | (.access a, t) => .next (hostAccess a t)

/-- `s` made ready so that the next step runs the instruction of this word of opcode_table.json (log entry 14). A word
that is none of the table's is placed as a write of the reserved command word 0x00. -/
def State.withFetchWord (s : State) (nbits w : Nat) : State := s.place ((tableWord nbits w).getD (.cmd8 0x00#8))

end Sys2Proof.Machine
end

