-- ==== Sys2Proof/WellFormed.lean ====
section
/-!
DEFINITION. The checks of syntax: of instructions, of words, of what a host can issue, of host scripts
(spec/30_encoding.md R71, R73, R74, R90).
-/

namespace Sys2Proof

open Sys2Proof.Machine

/-- An instruction has no operand (R72), so every instruction is well formed. -/
def Instr.wellFormed (_ : Instr) : Bool := true

/-- The host can issue the two commands and nothing else (R71, R74). -/
def Instr.issuable (i : Instr) : Bool := (instrPhase i).isNone

/-- A word that some row of R71 or R74 matches. -/
def CodeWord.wellFormed (w : CodeWord) : Bool := (decode w).isSome

/-- A command word is legal if R71 gives it an operation (R25, R73). -/
def Machine.HostAction.wellFormed : HostAction → Bool
  | .command c => (decode (.cmd8 c)).isSome
  | .access _ => true

/-- A host script all of whose command words are legal. -/
def Machine.Script.wellFormed (l : List HostAction) : Bool := l.all HostAction.wellFormed

end Sys2Proof
end

