-- ==== Sys2Proof/Safety.lean ====
section
/-!
DEFINITION. The terms claims are stated in: what a legal table is (spec/10_state.md R34), the values `STATUS` can take
(spec/95 ST8), the invariant of the block between commands, what a tree built by merging the two least nodes is
(spec/40_encoder.md R110 to R115), and a safe run.
-/

namespace Sys2Proof.Machine

/-- The entries of a table stand in strictly rising order of Symbol, so no Symbol has two (R14, R32). -/
def CodeTable.wf (ct : CodeTable) : Prop := ct.Pairwise fun a b => a.1.toNat < b.1.toNat

/-- The Symbol has an entry (R32). -/
def CodeTable.has (ct : CodeTable) (a : Symbol) : Prop := ∃ c, (a, c) ∈ ct

/-- No code is a prefix of another Symbol's code (R34 (c), R122 (a)). -/
def CodeTable.prefixFree (ct : CodeTable) : Prop := ∀ a ∈ ct, ∀ b ∈ ct, a.1 ≠ b.1 → ¬ a.2 <+: b.2

/-- Every code has at least one bit and at most `max(1, |dom| - 1)` (R34 (b), R122 (b)). -/
def CodeTable.lengthsLegal (ct : CodeTable) : Prop :=
  ∀ e ∈ ct, 1 ≤ e.2.length ∧ e.2.length ≤ max 1 (ct.length - 1)

/-- Every infinite bit sequence has exactly one code as a prefix (R34 (f)). -/
def CodeTable.complete (ct : CodeTable) : Prop :=
  ∀ f : Nat → Bit, ∃! e : Symbol × BitString, e ∈ ct ∧ e.2 = (List.range e.2.length).map f

/-- The Kraft sum of a table (R122 (d)). -/
def CodeTable.kraftSum (ct : CodeTable) : ℚ := (ct.map fun e => (1 / 2 : ℚ) ^ e.2.length).sum

/-- A legal pair of tables: R34 (a) to (f). -/
def TableLegal (ct : CodeTable) (rct : ReverseTable) : Prop :=
  ct.wf ∧ ct ≠ [] ∧ ct.length ≤ 256 ∧ ct.lengthsLegal ∧ ct.prefixFree ∧ rct = invert ct ∧
    (ct.length = 1 → ∀ e ∈ ct, e.2 = [false]) ∧ (2 ≤ ct.length → ct.complete)

/-- The bits of a text under a table: the codes of its Symbols in order (R125). -/
def CodeTable.bitsOf (ct : CodeTable) (t : List Symbol) : BitString := t.flatMap fun a => (ct.code? a).getD []

/-- The Symbols all have codes and the bits are those codes in order. -/
def CodeTable.Parses (ct : CodeTable) (t : List Symbol) (b : BitString) : Prop :=
  (∀ a ∈ t, ct.has a) ∧ b = ct.bitsOf t

/-- The values a read of `STATUS` can return (spec/95 ST8). -/
def legalStatus : List Byte := [0x00#8, 0x03#8, 0x04#8, 0x06#8, 0x08#8, 0x0E#8]

/-- Between commands: `PHASE` is `IDLE` (R30), `STATUS` has one of its six values, both buffers keep their form. -/
def State.ControlInv (s : State) : Prop :=
  s.phase = .idle ∧ s.status ∈ legalStatus ∧ s.ibuf.wf = true ∧ s.obuf.wf = true

/-- The invariant of the block between commands: the above, and a legal table whenever one is held (R34). -/
def State.Inv (s : State) : Prop := s.ControlInv ∧ (s.tableValid = true → TableLegal s.ct s.rct)

/-- A tie-break order that is total and pops a smaller frequency first (R9, R124). -/
def RefinesFrequency (tie : Config.Tie) : Prop :=
  (∀ a b : Config.QueueKey, a.1 < b.1 → tie a b = true) ∧ (∀ a, tie a a = false) ∧
    (∀ a b c, tie a b = true → tie b c = true → tie a c = true) ∧ (∀ a b, a ≠ b → tie a b = true ∨ tie b a = true)

/-- The code table of a text under a tie-break order: count, build, derive (R100). -/
def tableFor (tie : Config.Tie) (t : List Symbol) : Option CodeTable :=
  (buildTree tie (countSymbols t)).pq.head?.bind (codes (buildTree tie (countSymbols t)).node)

/-- One of the first `m` nodes is an internal node with this child (R36). -/
def hasParent (node : List TreeNode) (m j : Nat) : Prop :=
  ∃ i f l r : Nat, i < m ∧ node[i]? = some (TreeNode.internal f l r) ∧ (j = l ∨ j = r)

/-- Node `i` is in the queue when the first `m` nodes have been created: it has no parent yet (R37). -/
def inQueue (node : List TreeNode) (m i : Nat) : Prop := i < m ∧ ¬ hasParent node m i

/-- A pair (frequency, number) stands before another one (R113). -/
def popsBefore (node : List TreeNode) (a b : Nat) : Prop :=
  nodeFreq node a < nodeFreq node b ∨ (nodeFreq node a = nodeFreq node b ∧ a < b)

/-- Node `m` merges the two least members `a`, then `b`, of the queue of its time (R113, R114). -/
def mergesTwoLeast (node : List TreeNode) (m : Nat) : Prop :=
  ∃ a b, node[m]? = some (TreeNode.internal (nodeFreq node a + nodeFreq node b) a b) ∧
    inQueue node m a ∧ inQueue node m b ∧ popsBefore node a b ∧
    ∀ j, inQueue node m j → j ≠ a → j ≠ b → popsBefore node b j

/-- The node reached from node `i` by a path, `0` left and `1` right (R83). -/
def walk (node : List TreeNode) : Nat → BitString → Option Nat
  | i, [] => some i
  | i, b :: p =>
    match node[i]? with
    | some (.internal _ l r) => walk node (if b then r else l) p
    | _ => none

/-- A run that never stops: every number of steps leads to a next state (R178, R216). -/
def State.SafeRun (s : State) : Prop := ∀ n, ∃ t, Sys2Proof.core.run n s = .next t

/-- `OBUF[0..OLEN)` where every byte of it is specified (R24). -/
def State.resultIs (s : State) (bs : List Byte) : Prop := s.olen = bs.length ∧ s.obuf = Memory.ofBytes bs

/-- No byte of `OBUF` is specified (R24, R176). -/
def State.outputUnspecified (s : State) : Prop := ∀ i, s.obuf.read? i = none

end Sys2Proof.Machine
end

