-- ==== Sys2Proof/Certificates/Slice0/Obligations.lean ====
section
/-!
DEFINITION. The statements for the provers. Each docstring names the rule of spec/ its statement formalises.
A statement whose conclusion is `∃ t, exec i s = .next t ∧ …` also says that the instruction completes.
-/

open Sys2Proof Sys2Proof.Machine

/-! ## Words and the step -/

/-- R71, R74: a word selects an instruction exactly if it is that instruction's word. -/
def Obligations.DecodeAgreesWithEncode : Prop :=
  ∀ (w : CodeWord) (i : Instr), decode w = some i ↔ w = encode i

/-- R71, R74: the word of every row, written out bit by bit from the spec's tables. -/
def Obligations.WrittenOutWordsDecode : Prop :=
  decode (.cmd8 0b00000001#8) = some .compress ∧ decode (.cmd8 0b00000010#8) = some .decompress ∧
  decode (.ph4 0b0000#4) = some .idle ∧ decode (.ph4 0b0001#4) = some .eTrim ∧
  decode (.ph4 0b0010#4) = some .eFreq ∧ decode (.ph4 0b0011#4) = some .eBuild ∧
  decode (.ph4 0b0100#4) = some .eCode ∧ decode (.ph4 0b0101#4) = some .ePack ∧
  decode (.ph4 0b1000#4) = some .dCheck ∧ decode (.ph4 0b1001#4) = some .dExpand ∧
  decode (.ph4 0b1010#4) = some .dHdr ∧ decode (.ph4 0b1011#4) = some .dStrip ∧
  decode (.ph4 0b1100#4) = some .dScan

/-- R73: every other command word is refused by the step that meets it. -/
def Obligations.ReservedCommandWordsAreRefused : Prop :=
  ∀ (s : State) (c : Byte) (r : List HostAction), s.phase = .idle → s.script = .command c :: r →
    c ≠ 0x01#8 → c ≠ 0x02#8 → step s = .refused (.reservedWord (.cmd8 c))

/-- R25, R30, R17: a step runs the decoded instruction: the phase's while a phase is on, the command's when the host
writes `CMD`, `IDLE` when the host does nothing; and a host access otherwise. -/
def Obligations.StepRunsTheDecodedInstruction : Prop :=
  (∀ (s t : State) (w : CodeWord) (i : Instr), s.fetch = (.word w, t) → decode w = some i → step s = exec i t) ∧
  (∀ s : State, s.phase ≠ .idle → step s = exec (phaseInstr s.phase) s) ∧
  (∀ (s : State) (c : Byte) (r : List HostAction) (i : Instr), s.phase = .idle → s.script = .command c :: r →
    decode (.cmd8 c) = some i → step s = exec i { s with script := r }) ∧
  (∀ s : State, s.phase = .idle → s.script = [] → step s = exec .idle s) ∧
  (∀ (s : State) (a : HostAccess) (r : List HostAction), s.phase = .idle → s.script = .access a :: r →
    step s = .next (hostAccess a { s with script := r }))

/-- R30, R184: in `IDLE` the block holds its state. -/
def Obligations.IdleHoldsTheState : Prop := ∀ s : State, exec .idle s = .next s

/-- R30: each phase that ends without error enters the next phase of its path, the last one `IDLE`; a phase that
raises enters `IDLE`, with its own error kind. -/
def Obligations.PhasesFollowTheirPath : Prop :=
  ∀ s : State,
    (∃ t, exec .eTrim s = .next t ∧ t.phase = .eFreq) ∧ (∃ t, exec .eFreq s = .next t ∧ t.phase = .eBuild) ∧
    (∃ t, exec .eBuild s = .next t ∧ (t.phase = .eCode ∨ (t.phase = .idle ∧ t.err = .emptyAlphabet))) ∧
    (∃ t, exec .eCode s = .next t ∧ t.phase = .ePack) ∧ (∃ t, exec .ePack s = .next t ∧ t.phase = .idle) ∧
    (∃ t, exec .dCheck s = .next t ∧ (t.phase = .dExpand ∨ (t.phase = .idle ∧ t.err = .missingCodeTable))) ∧
    (∃ t, exec .dExpand s = .next t ∧ t.phase = .dHdr) ∧
    (∃ t, exec .dHdr s = .next t ∧ (t.phase = .dStrip ∨ (t.phase = .idle ∧ t.err = .corruptPadding))) ∧
    (∃ t, exec .dStrip s = .next t ∧ (t.phase = .dScan ∨ (t.phase = .idle ∧ t.err = .corruptPadding))) ∧
    (∃ t, exec .dScan s = .next t ∧ t.phase = .idle)

/-- R17: a command run phase by phase from its start ends, after at most five phases with the block never idle in
between, in the very state the command's one step gives. -/
def Obligations.PhaseStepsAgreeWithTheCommand : Prop :=
  ∀ s : State,
    (∃ n ≤ 5, ∃ t, Sys2Proof.core.run n (s.start .eTrim) = .next t ∧ exec .compress s = .next t ∧ t.phase = .idle ∧
      ∀ m < n, ∃ u, Sys2Proof.core.run m (s.start .eTrim) = .next u ∧ u.phase ≠ .idle) ∧
    (∃ n ≤ 5, ∃ t, Sys2Proof.core.run n (s.start .dCheck) = .next t ∧ exec .decompress s = .next t ∧ t.phase = .idle ∧
      ∀ m < n, ∃ u, Sys2Proof.core.run m (s.start .dCheck) = .next u ∧ u.phase ≠ .idle)

/-! ## Reset and the host's accesses -/

/-- R200, R43: reset, applied by the host in any state between commands, gives the values of R43. The buffers' bytes
are unspecified. (R43's "no value" for the table is stated as `TABLE_VALID = 0`; that the model then holds empty maps
is its own choice, log entry 8, and not stated.) -/
def Obligations.ResetGivesTheStatedValues : Prop :=
  ∀ (s : State) (r : List HostAction), s.phase = .idle → s.script = .access .reset :: r →
    ∃ t, step s = .next t ∧ t.status = 0x00#8 ∧ t.done = false ∧ t.tableValid = false ∧ t.err = .none ∧
      t.ilen = 0 ∧ t.olen = 0 ∧ t.phase = .idle ∧ (∀ i, t.ibuf.read? i = none) ∧ t.outputUnspecified ∧ t.script = r

/-- R201: right after reset `STATUS`, `ILEN`, `OLEN` and `CMD` read 0 and every buffer byte is unspecified; a `COMPRESS`
raises `EmptyAlphabet`, a `DECOMPRESS` raises `MissingCodeTable`; `STATUS` then reads 0x04 and 0x08. -/
def Obligations.CommandsRightAfterReset : Prop :=
  ∀ r : State, (r = State.reset ∨ ∃ s, r = hostAccess .reset s) →
    (hostAccess .readStatus r).seen = r.seen ++ [Observation.status 0x00#8] ∧
    (hostAccess .readIlen r).seen = r.seen ++ [Observation.ilen 0] ∧
    (hostAccess .readOlen r).seen = r.seen ++ [Observation.olen 0] ∧
    (hostAccess .readCmd r).seen = r.seen ++ [Observation.cmd 0x00#8] ∧
    (∀ i, r.ibuf.read? i = none) ∧ r.outputUnspecified ∧
    (∃ t, exec .compress r = .next t ∧ t.err = .emptyAlphabet ∧ t.status = 0x04#8) ∧
    (∃ t, exec .decompress r = .next t ∧ t.err = .missingCodeTable ∧ t.status = 0x08#8)

/-- R26: `STATUS` holds `DONE` in bit 0, `TABLE_VALID` in bit 1, `ERR` in bits 4:2, zeros in bits 7:5; a read returns
`DONE + 2*TABLE_VALID + 4*ERR`; a host write to it has no effect; it is 0 after reset. -/
def Obligations.StatusRegisterReadsItsFields : Prop :=
  (∀ s : State, s.status.toNat = s.done.toNat + 2 * s.tableValid.toNat + 4 * s.err.code ∧
    s.status.getLsbD 0 = s.done ∧ s.status.getLsbD 1 = s.tableValid ∧
    (s.status.extractLsb' 2 3).toNat = s.err.code ∧ s.status.extractLsb' 5 3 = 0#3) ∧
  (∀ (s : State) (b : Byte), hostAccess (.writeStatus b) s = s ∧
    (hostAccess .readStatus s).seen = s.seen ++ [Observation.status s.status]) ∧
  State.reset.status = 0x00#8

/-- R42, R56: host writes to `OBUF`, `OLEN`, `STATUS` have no effect. A read of `CMD` returns 0, a read of `ILEN` its
value, a read of `OLEN` its value while `ERR` is `NONE`, a read of a buffer byte its value where that is specified, and
`READ` (one access: log entry 17) the status, the length and the bytes of a result that is specified. No read changes
anything of the block's. -/
def Obligations.HostAccessRights : Prop :=
  ∀ (s : State) (i n : Nat) (b : Byte),
    hostAccess (.writeObuf i b) s = s ∧ hostAccess (.writeOlen n) s = s ∧ hostAccess (.writeStatus b) s = s ∧
    hostAccess .readCmd s = { s with seen := s.seen ++ [Observation.cmd 0x00#8] } ∧
    (hostAccess .readIlen s).seen = s.seen ++ [Observation.ilen s.ilen] ∧
    (s.err = .none → (hostAccess .readOlen s).seen = s.seen ++ [Observation.olen s.olen]) ∧
    (s.obuf.read? i = some b → (hostAccess (.readObuf i) s).seen = s.seen ++ [Observation.obuf i b]) ∧
    (s.ibuf.read? i = some b → (hostAccess (.readIbuf i) s).seen = s.seen ++ [Observation.ibuf i b]) ∧
    (∀ bs, s.err = .none → s.resultIs bs →
      (hostAccess .readResult s).seen = s.seen ++ [Observation.result s.status bs.length bs]) ∧
    ∀ a ∈ [HostAccess.readIbuf i, .readIlen, .readObuf i, .readOlen, .readStatus, .readCmd, .readResult],
      let t := hostAccess a s
      t = { s with seen := t.seen, draws := t.draws }

/-- R42, R21, R23: a host write to `IBUF[i]` is what a read of it gives from then on and changes no other byte; a write
to `ILEN` stores its value; neither changes anything else. The clause `t.ibufByte j = s.ibufByte j` also covers bytes
never written, for which R42 and U4 promise no agreement: that they stay the same unknown until the next draw is the
model's choice, log entry 5. -/
def Obligations.HostWritesStoreTheirValue : Prop :=
  ∀ (s : State) (i n : Nat) (b : Byte), s.ibuf.wf = true →
    (let t := hostAccess (.writeIbuf i b) s
     t = { s with ibuf := t.ibuf } ∧ t.ibuf.wf = true ∧ t.ibufByte i = b ∧
       (hostAccess (.readIbuf i) t).seen = s.seen ++ [Observation.ibuf i b] ∧
       ∀ j, j ≠ i → t.ibuf.read? j = s.ibuf.read? j ∧ t.ibufByte j = s.ibufByte j) ∧
    hostAccess (.writeIlen n) s = { s with ilen := n }

/-- R90 `LOAD`: run as single host writes, one a step, it leaves the bytes as the input `IBUF[0..ILEN)` and touches
nothing else. -/
def Obligations.LoadMakesTheInput : Prop :=
  ∀ (s : State) (bs : List Byte) (r : List HostAction), s.phase = .idle → s.ibuf.wf = true →
    s.script = loadActions bs ++ r →
    ∃ t, Sys2Proof.core.run (bs.length + 1) s = .next t ∧ t.input = bs ∧
      t = { s with ibuf := t.ibuf, ilen := bs.length, script := r } ∧
      ∀ j, bs.length ≤ j → t.ibuf.read? j = s.ibuf.read? j

/-! ## The encoder -/

/-- R103: `TLEN` is the largest `n <= ILEN` such that `n = 0` or `IBUF[n-1]` is not in `WS`; nothing else changes but
`PHASE`. That `WS` is these six bytes is R6, the spec's own choice from general knowledge (D2, K1; log entry 11). -/
def Obligations.TrimTakesTheLargestLength : Prop :=
  ∀ s : State, ∃ t, exec .eTrim s = .next t ∧
    t = { s with enc := { s.enc with tlen := t.enc.tlen }, phase := .eFreq } ∧
    (let ok := fun n => n = 0 ∨ s.ibufByte (n - 1) ∉ [0x09#8, 0x0A#8, 0x0B#8, 0x0C#8, 0x0D#8, 0x20#8]
     t.enc.tlen ≤ s.ilen ∧ ok t.enc.tlen ∧ ∀ n ≤ s.ilen, ok n → n ≤ t.enc.tlen)

/-- R106: `FREQ[a]` is the number of indices `i < TLEN` with `IBUF[i] = a`, and `N` the number of Symbols with a
counter above 0; nothing else changes but `PHASE`. -/
def Obligations.FreqCountsEverySymbol : Prop :=
  ∀ s : State, ∃ t, exec .eFreq s = .next t ∧
    t = { s with enc := { s.enc with freq := t.enc.freq, n := t.enc.n }, phase := .eBuild } ∧
    (∀ a : Symbol, t.enc.freq.count a = ((List.range s.enc.tlen).filter fun i => s.ibufByte i = a).length) ∧
    t.enc.n = (Finset.univ.filter fun a : Symbol => 0 < t.enc.freq.count a).card

/-- R107: the counters sum to `TLEN`; `N = 0` exactly when `TLEN = 0`; `N <= min(TLEN, 256)`. -/
def Obligations.FreqSumsToTheTrimmedLength : Prop :=
  ∀ s : State, ∃ t, exec .eFreq s = .next t ∧ (∑ a : Symbol, t.enc.freq.count a) = s.enc.tlen ∧
    (t.enc.n = 0 ↔ s.enc.tlen = 0) ∧ t.enc.n ≤ min s.enc.tlen 256

/-- R110: with `N = 0` the phase `E_BUILD` raises `EmptyAlphabet` before anything else: `PHASE` is `IDLE`, `OBUF` is
unspecified, `DONE` and everything that outlives a command stay. -/
def Obligations.BuildRaisesOnEmptyAlphabet : Prop :=
  ∀ s : State, s.enc.n = 0 → ∃ t, exec .eBuild s = .next t ∧ t.err = .emptyAlphabet ∧ t.phase = .idle ∧
    t.done = s.done ∧ t.outputUnspecified ∧ t.ibuf = s.ibuf ∧ t.ilen = s.ilen ∧ t.ct = s.ct ∧ t.rct = s.rct ∧
    t.tableValid = s.tableValid ∧ t.script = s.script ∧ t.seen = s.seen

/-- R110 to R115: on a `FREQ` with `N >= 1` Symbols, `E_BUILD` makes `2N - 1` nodes: the leaves of the Symbols that
occur, numbered from 0 in ascending order of Symbol, then one merge after another, each of the two least members of
the queue; `ROOT = 2N - 2`, the one member left in `PQ`; nothing else changes but `PHASE`. The numbering of the leaves
(R112), and with it the order among equal frequencies, is a choice: the spec's decision D4, log entry 12. -/
def Obligations.BuildMergesTheTwoLeast : Prop :=
  ∀ s : State, s.enc.n = (alphabet s.enc.freq).length → 1 ≤ s.enc.n →
    ∃ t, exec .eBuild s = .next t ∧
      t = { s with enc := { s.enc with node := t.enc.node, next := t.enc.next, pq := t.enc.pq, root := t.enc.root },
                   phase := .eCode } ∧
      t.enc.node.length = 2 * s.enc.n - 1 ∧ t.enc.next = 2 * s.enc.n - 1 ∧ t.enc.root = 2 * s.enc.n - 2 ∧
      t.enc.pq = [t.enc.root] ∧
      (∀ k (hk : k < (alphabet s.enc.freq).length), t.enc.node[k]? =
        some (TreeNode.leaf (s.enc.freq.count (alphabet s.enc.freq)[k]) (alphabet s.enc.freq)[k])) ∧
      ∀ m, s.enc.n ≤ m → m < 2 * s.enc.n - 1 → mergesTwoLeast t.enc.node m

/-- R115, R114: the root's frequency is the sum of the counters; every node but the root is a child of exactly one
internal node; a left child's frequency is at most the right one's; internal nodes are created with non-decreasing
frequency. -/
def Obligations.BuiltTreeIsStrict : Prop :=
  ∀ s : State, s.enc.n = (alphabet s.enc.freq).length → 1 ≤ s.enc.n →
    ∃ t, exec .eBuild s = .next t ∧
      nodeFreq t.enc.node t.enc.root = ∑ a : Symbol, s.enc.freq.count a ∧
      (∀ j < t.enc.node.length, j ≠ t.enc.root →
        ∃! i : Nat, ∃ f l r : Nat, t.enc.node[i]? = some (TreeNode.internal f l r) ∧ (j = l ∨ j = r)) ∧
      (∀ i f l r : Nat, t.enc.node[i]? = some (TreeNode.internal f l r) →
        l ≠ r ∧ l < i ∧ r < i ∧ nodeFreq t.enc.node l ≤ nodeFreq t.enc.node r) ∧
      ∀ i j, s.enc.n ≤ i → i ≤ j → j < t.enc.node.length → nodeFreq t.enc.node i ≤ nodeFreq t.enc.node j

/-- R118, R119, R120: on the tree of a `FREQ` with at least two Symbols, `E_CODE` gives a Symbol a code exactly if the
path from the root along that code ends at its leaf; on the tree of one Symbol that Symbol gets `"0"`; `RCT` is the
inverse; nothing else changes but `PHASE`. -/
def Obligations.CodesAreTheLeafPaths : Prop :=
  ∀ (s : State) (f : FreqTable), 1 ≤ (alphabet f).length → s.enc.node = (buildTree Config.tie f).node →
    s.enc.root = 2 * (alphabet f).length - 2 →
    ∃ t, exec .eCode s = .next t ∧ t = { s with ct := t.ct, rct := t.rct, phase := .ePack } ∧
      (2 ≤ (alphabet f).length → ∀ a c, (a, c) ∈ t.ct ↔
        ∃ i k, walk s.enc.node s.enc.root c = some i ∧ s.enc.node[i]? = some (TreeNode.leaf k a)) ∧
      ((alphabet f).length = 1 → ∀ a c, (a, c) ∈ t.ct ↔ a ∈ alphabet f ∧ c = [false]) ∧
      t.ct.wf ∧ ∀ a c, (c, a) ∈ t.rct ↔ (a, c) ∈ t.ct

/-- R116, R119: a text of one distinct Symbol gives that Symbol the code `"0"`, the only entry of both tables, and as
many coded bits as the text has Symbols. -/
def Obligations.OneSymbolGetsCodeZero : Prop :=
  ∀ (s : State) (a : Symbol), s.trimmedInput ≠ [] → (∀ x ∈ s.trimmedInput, x = a) →
    ∃ t, exec .compress s = .next t ∧ t.ct = [(a, [false])] ∧ t.rct = [([false], a)] ∧
      t.resultIs (toBytes (streamOf (padAmount s.trimmedInput.length) (List.replicate s.trimmedInput.length false)))

/-- R126: `PAD` is in 0 to 7, `(L + PAD) mod 8 = 0`, and it is 0 when `L` is a multiple of 8. -/
def Obligations.PadAmountAlignsWithoutAnExtraByte : Prop :=
  ∀ l : Nat, padAmount l ≤ 7 ∧ (l + padAmount l) % 8 = 0 ∧ (l % 8 = 0 → padAmount l = 0)

/-- R125, R127, R53, R129: where every Symbol of `T` has a code, `E_PACK` leaves in `OBUF[0..OLEN)` the header, the codes
in input order and `PAD` zero bits, stream bit `k` being bit `7 - k mod 8` of byte `k div 8`, and no other byte
specified; then it commits. Input, table and host are untouched. -/
def Obligations.PackLaysOutTheStream : Prop :=
  ∀ s : State, (∀ a ∈ s.trimmed, s.ct.has a) → ∃ t, exec .ePack s = .next t ∧
    t.done = true ∧ t.tableValid = true ∧ t.err = s.err ∧ t.phase = .idle ∧
    t.ibuf = s.ibuf ∧ t.ilen = s.ilen ∧ t.ct = s.ct ∧ t.rct = s.rct ∧ t.script = s.script ∧ t.seen = s.seen ∧
    (let bits := s.ct.bitsOf s.trimmed
     let pad := padAmount bits.length
     8 * t.olen = 8 + bits.length + pad ∧ (∀ j, (t.obuf.read? j).isSome ↔ j < t.olen) ∧
     t.obuf.read? 0 = some (BitVec.ofNat 8 pad) ∧
     ∀ k < 8 * t.olen, (t.obuf.read? (k / 8)).map (fun b => b.getLsbD (7 - k % 8)) =
       (bits8 (BitVec.ofNat 8 pad) ++ bits ++ List.replicate pad false)[k]?)

/-- R100: where the trimmed input is not empty, `COMPRESS` succeeds with the table of that input and the packed codes;
`IBUF` and `ILEN` stay. -/
def Obligations.CompressOfANonemptyText : Prop :=
  ∀ s : State, s.trimmedInput ≠ [] → ∃ t ct, exec .compress s = .next t ∧
    tableFor Config.tie s.trimmedInput = some ct ∧ t.ct = ct ∧ t.rct = invert ct ∧
    (∀ a, ct.has a ↔ a ∈ s.trimmedInput) ∧
    t.resultIs (toBytes (streamOf (padAmount (ct.bitsOf s.trimmedInput).length) (ct.bitsOf s.trimmedInput))) ∧
    t.done = true ∧ t.err = .none ∧ t.tableValid = true ∧ t.phase = .idle ∧
    t.ibuf = s.ibuf ∧ t.ilen = s.ilen ∧ t.script = s.script ∧ t.seen = s.seen

/-- R132: where the trimmed input is empty, `COMPRESS` ends with `EmptyAlphabet`; table, `TABLE_VALID`, `IBUF`, `ILEN`
stay, `OBUF` is unspecified; and it never ends with another error. -/
def Obligations.CompressOfABlankText : Prop :=
  (∀ s : State, ∃ t, exec .compress s = .next t ∧ (t.err = .none ∨ t.err = .emptyAlphabet)) ∧
  ∀ s : State, s.trimmedInput = [] → ∃ t, exec .compress s = .next t ∧
    t.err = .emptyAlphabet ∧ t.done = false ∧ t.phase = .idle ∧ t.outputUnspecified ∧ t.ct = s.ct ∧ t.rct = s.rct ∧
    t.tableValid = s.tableValid ∧ t.ibuf = s.ibuf ∧ t.ilen = s.ilen ∧ t.script = s.script ∧ t.seen = s.seen

/-- R101, R130: the outcome of `COMPRESS` is a function of `IBUF[0..ILEN)` only, whatever came before. -/
def Obligations.CompressDependsOnTheInputOnly : Prop :=
  ∀ s s' : State, s.input = s'.input → ∃ t t', exec .compress s = .next t ∧ exec .compress s' = .next t' ∧
    t.err = t'.err ∧ t.done = t'.done ∧
    (t.err = .none → t.ct = t'.ct ∧ t.rct = t'.rct ∧ t.tableValid = t'.tableValid ∧ t.olen = t'.olen ∧ t.obuf = t'.obuf)

/-- R122 (a), (b), (d): after a `COMPRESS` of a nonempty text the codes are prefix-free, their lengths are 1 to
`max(1, N - 1)`, and for `N >= 2` their Kraft sum is 1 (for `N = 1` it is 1/2). -/
def Obligations.CompressCodesArePrefixFree : Prop :=
  ∀ s : State, s.trimmedInput ≠ [] → ∃ t, exec .compress s = .next t ∧
    t.ct.length = s.trimmedInput.toFinset.card ∧ t.ct.prefixFree ∧ t.ct.lengthsLegal ∧
    (2 ≤ t.ct.length → t.ct.kraftSum = 1) ∧ (t.ct.length = 1 → t.ct.kraftSum = 1 / 2)

/-- R123: the number of coded bits is the sum of frequency times code length, no other prefix code of the text's
Symbols gives fewer, and it is at most eight times, for one Symbol once, the text's length. -/
def Obligations.CompressIsOptimal : Prop :=
  ∀ s : State, s.trimmedInput ≠ [] → ∃ t, exec .compress s = .next t ∧
    (t.ct.bitsOf s.trimmedInput).length = (t.ct.map fun e => s.trimmedInput.count e.1 * e.2.length).sum ∧
    (t.ct.bitsOf s.trimmedInput).length ≤ 8 * s.trimmedInput.length ∧
    (t.ct.length = 1 → (t.ct.bitsOf s.trimmedInput).length = s.trimmedInput.length) ∧
    ∀ other : Symbol → BitString, (∀ a ∈ s.trimmedInput, other a ≠ []) →
      (∀ a ∈ s.trimmedInput, ∀ b ∈ s.trimmedInput, a ≠ b → ¬ other a <+: other b) →
      (t.ct.bitsOf s.trimmedInput).length ≤ (s.trimmedInput.flatMap other).length

/-- R122 (e): a Symbol that occurs more often than another one has a code that is no longer. -/
def Obligations.FrequentSymbolsGetNoLongerCodes : Prop :=
  ∀ s : State, s.trimmedInput ≠ [] → ∃ t, exec .compress s = .next t ∧
    ∀ a ∈ t.ct, ∀ b ∈ t.ct, s.trimmedInput.count b.1 < s.trimmedInput.count a.1 → a.2.length ≤ b.2.length

/-- R124, of R122 (a), (b), (d) and R123: what holds under every total tie-break order that pops a smaller frequency
first (`EveryTieOrderRoundTrips` and `EveryTieOrderBuildsAStrictTree` say it of R163 and R115). The table has exactly the
text's Symbols, is prefix-free, has legal lengths and Kraft sum 1, and codes the text in as many bits as this
machine's order does. -/
def Obligations.EveryTieOrderIsAsGood : Prop :=
  ∀ (tie : Config.Tie) (x : List Symbol), RefinesFrequency tie → x ≠ [] →
    ∃ ct ct', tableFor tie x = some ct ∧ tableFor Config.tie x = some ct' ∧
      (∀ a, ct.has a ↔ a ∈ x) ∧ ct.prefixFree ∧ ct.lengthsLegal ∧ (2 ≤ ct.length → ct.kraftSum = 1) ∧
      (ct.bitsOf x).length = (ct'.bitsOf x).length

/-- R128: the output of a `COMPRESS` of a nonempty text has at least two bytes and at most one more than the trimmed
text. -/
def Obligations.CompressedLengthIsBounded : Prop :=
  ∀ s : State, s.trimmedInput ≠ [] → ∃ t, exec .compress s = .next t ∧
    t.olen = 1 + ((t.ct.bitsOf s.trimmedInput).length + 7) / 8 ∧
    2 ≤ t.olen ∧ t.olen ≤ 1 + s.trimmedInput.length ∧ s.trimmedInput.length ≤ s.ilen

/-! ## The decoder -/

/-- R142: with no table held `D_CHECK` raises `MissingCodeTable`, whatever the input; otherwise it only goes on. -/
def Obligations.CheckRaisesWithoutATable : Prop :=
  ∀ s : State, ∃ t, exec .dCheck s = .next t ∧
    (s.tableValid = true → t = { s with phase := .dExpand }) ∧
    (s.tableValid = false → t.err = .missingCodeTable ∧ t.phase = .idle ∧ t.done = s.done ∧ t.outputUnspecified ∧
      t.ibuf = s.ibuf ∧ t.ilen = s.ilen ∧ t.ct = s.ct ∧ t.rct = s.rct ∧ t.tableValid = false ∧
      t.script = s.script ∧ t.seen = s.seen)

/-- R144, R53: `DBITS` has `8 * ILEN` bits, bit `k` being bit `7 - k mod 8` of `IBUF[k div 8]`; nothing else changes but
`PHASE`. -/
def Obligations.ExpandListsEveryBit : Prop :=
  ∀ s : State, ∃ t, exec .dExpand s = .next t ∧
    t = { s with dec := { s.dec with dbits := t.dec.dbits }, phase := .dHdr } ∧
    t.dec.dbits.length = 8 * s.ilen ∧
    ∀ k < 8 * s.ilen, t.dec.dbits[k]? = some ((s.ibufByte (k / 8)).getLsbD (7 - k % 8))

/-- R146, R78: with fewer than eight bits `D_HDR` raises `CorruptPadding`; otherwise `PAD` is the number the first
eight bits spell, all eight of them, most significant first; nothing else changes but `PHASE`. -/
def Obligations.HeaderIsTheFirstEightBits : Prop :=
  ∀ s : State, ∃ t, exec .dHdr s = .next t ∧
    (8 ≤ s.dec.dbits.length → t = { s with dec := { s.dec with pad := t.dec.pad }, phase := .dStrip } ∧
      t.dec.pad < 256 ∧ ∀ k < 8, s.dec.dbits[k]? = some (t.dec.pad.testBit (7 - k))) ∧
    (s.dec.dbits.length < 8 → t.err = .corruptPadding ∧ t.phase = .idle ∧ t.done = s.done ∧ t.outputUnspecified ∧
      t.ibuf = s.ibuf ∧ t.ilen = s.ilen ∧ t.ct = s.ct ∧ t.rct = s.rct ∧ t.tableValid = s.tableValid ∧
      t.script = s.script ∧ t.seen = s.seen)

/-- R150: `REST` is `DBITS` without its first eight bits; `PAD > len(REST)` raises `CorruptPadding`; otherwise `BODY` is
`REST` without its last `PAD` bits, all of it when `PAD = 0`; nothing else changes but `PHASE`. -/
def Obligations.StripDropsHeaderAndPadding : Prop :=
  ∀ s : State, ∃ t, exec .dStrip s = .next t ∧
    (s.dec.pad ≤ s.dec.dbits.length - 8 →
      t = { s with dec := { s.dec with rest := t.dec.rest, body := t.dec.body }, phase := .dScan } ∧
      s.dec.dbits = s.dec.dbits.take 8 ++ t.dec.rest ∧ t.dec.rest.length = s.dec.dbits.length - 8 ∧
      ∃ dropped : BitString, t.dec.rest = t.dec.body ++ dropped ∧ dropped.length = s.dec.pad) ∧
    (s.dec.dbits.length - 8 < s.dec.pad → t.err = .corruptPadding ∧ t.phase = .idle ∧ t.done = s.done ∧
      t.outputUnspecified ∧ t.ibuf = s.ibuf ∧ t.ilen = s.ilen ∧ t.ct = s.ct ∧ t.rct = s.rct ∧
      t.tableValid = s.tableValid ∧ t.script = s.script ∧ t.seen = s.seen)

/-- R152, R154, R156: under a prefix-free table `D_SCAN` succeeds exactly if `BODY` is a sequence of codes, with their
Symbols as the result; otherwise it raises `CorruptPadding`. Input, table and host are untouched. -/
def Obligations.ScanDecodesExactlyWhatParses : Prop :=
  ∀ (s : State) (ct : CodeTable), s.rct = invert ct → ct.wf → ct.prefixFree → (∀ e ∈ ct, e.2 ≠ []) →
    ∃ t, exec .dScan s = .next t ∧ t.phase = .idle ∧
      t.ibuf = s.ibuf ∧ t.ilen = s.ilen ∧ t.ct = s.ct ∧ t.rct = s.rct ∧ t.tableValid = s.tableValid ∧
      t.script = s.script ∧ t.seen = s.seen ∧
      (∀ x, ct.Parses x s.dec.body → t.done = true ∧ t.err = s.err ∧ t.resultIs x) ∧
      ((∀ x, ¬ ct.Parses x s.dec.body) → t.done = s.done ∧ t.err = .corruptPadding ∧ t.outputUnspecified)

/-- R152, R154, R156, for every `RCT`: the scan starts with an empty candidate; with no bit left, an empty candidate is
success with what was emitted, a nonempty one `CorruptPadding`; a bit completes a code or joins the candidate. -/
def Obligations.ScanFollowsItsLoop : Prop :=
  (∀ s : State, ∃ t, exec .dScan s = .next t ∧
    ((scan s.rct s.dec.body [] []).1 = [] → t.done = true ∧ t.err = s.err ∧
      t.resultIs (scan s.rct s.dec.body [] []).2) ∧
    ((scan s.rct s.dec.body [] []).1 ≠ [] → t.done = s.done ∧ t.err = .corruptPadding ∧ t.outputUnspecified)) ∧
  ∀ (rct : ReverseTable) (bit : Bit) (bits : BitString) (buf : BitString) (out : List Symbol),
    scan rct [] buf out = (buf, out) ∧
    (∀ a, rct.symbol? (buf ++ [bit]) = some a → scan rct (bit :: bits) buf out = scan rct bits [] (out ++ [a])) ∧
    (rct.symbol? (buf ++ [bit]) = none → scan rct (bit :: bits) buf out = scan rct bits (buf ++ [bit]) out)

/-- R167, R179: the errors of `DECOMPRESS` in the order they are tested, and its result when none of them holds; input
and table are untouched either way (R162). -/
def Obligations.DecompressErrorsInOrder : Prop :=
  ∀ s : State, ∃ t, exec .decompress s = .next t ∧ t.phase = .idle ∧
    t.ibuf = s.ibuf ∧ t.ilen = s.ilen ∧ t.ct = s.ct ∧ t.rct = s.rct ∧ t.tableValid = s.tableValid ∧
    (if s.tableValid = false then t.err = .missingCodeTable ∧ t.done = false ∧ t.outputUnspecified
     else if s.ilen = 0 then t.err = .corruptPadding ∧ t.done = false ∧ t.outputUnspecified
     else if (s.ibufByte 0).toNat > 8 * (s.ilen - 1) then
       t.err = .corruptPadding ∧ t.done = false ∧ t.outputUnspecified
     else
       let rest := (s.input.drop 1).flatMap bits8
       let body := rest.take (rest.length - (s.ibufByte 0).toNat)
       if (scan s.rct body [] []).1 ≠ [] then t.err = .corruptPadding ∧ t.done = false ∧ t.outputUnspecified
       else t.err = .none ∧ t.done = true ∧ t.resultIs (scan s.rct body [] []).2)

/-- R162: a `DECOMPRESS`, with or without error, leaves `IBUF`, `ILEN`, `CT`, `RCT` and `TABLE_VALID` as they were. -/
def Obligations.DecompressLeavesInputAndTable : Prop :=
  ∀ s : State, ∃ t, exec .decompress s = .next t ∧ t.ibuf = s.ibuf ∧ t.ilen = s.ilen ∧ t.ct = s.ct ∧ t.rct = s.rct ∧
    t.tableValid = s.tableValid ∧ t.script = s.script ∧ t.seen = s.seen

/-- R141: the outcome of `DECOMPRESS` is a function of `IBUF[0..ILEN)`, `TABLE_VALID` and `RCT` only. -/
def Obligations.DecompressDependsOnInputAndTableOnly : Prop :=
  ∀ s s' : State, s.input = s'.input → s.tableValid = s'.tableValid → s.rct = s'.rct →
    ∃ t t', exec .decompress s = .next t ∧ exec .decompress s' = .next t' ∧ t.err = t'.err ∧ t.done = t'.done ∧
      (t.err = .none → t.olen = t'.olen ∧ t.obuf = t'.obuf)

/-- R160 (1), (2): a header above 7 is not rejected as such and the dropped padding bits are not looked at: two inputs
of the same length with the same header whose bits agree up to the padding have the same outcome. -/
def Obligations.PaddingBitsAreNotLookedAt : Prop :=
  ∀ s s' : State, s.tableValid = s'.tableValid → s.rct = s'.rct → s.ilen = s'.ilen → s.ibufByte 0 = s'.ibufByte 0 →
    (let bits := s.input.flatMap bits8
     let bits' := s'.input.flatMap bits8
     bits.take (bits.length - (s.ibufByte 0).toNat) = bits'.take (bits.length - (s.ibufByte 0).toNat)) →
    ∃ t t', exec .decompress s = .next t ∧ exec .decompress s' = .next t' ∧ t.err = t'.err ∧ t.done = t'.done ∧
      (t.err = .none → t.olen = t'.olen ∧ t.obuf = t'.obuf)

/-- R161, R160: when the header drops every bit after it, `DECOMPRESS` with a table succeeds with no output, whatever
the header's value. -/
def Obligations.EmptyBodySucceeds : Prop :=
  ∀ s : State, s.tableValid = true → 1 ≤ s.ilen → (s.ibufByte 0).toNat = 8 * (s.ilen - 1) →
    ∃ t, exec .decompress s = .next t ∧ t.err = .none ∧ t.done = true ∧ t.olen = 0 ∧ t.outputUnspecified

/-- R158: the output of a `DECOMPRESS` that succeeds has at most `8 * (ILEN - 1) - PAD` bytes. -/
def Obligations.DecompressedLengthIsBounded : Prop :=
  ∀ s : State, TableLegal s.ct s.rct → ∃ t, exec .decompress s = .next t ∧
    (t.err = .none → t.olen + (s.ibufByte 0).toNat ≤ 8 * (s.ilen - 1))

/-- R165: what is left over at the end of a scan: with two or more Symbols a proper prefix of a code and shorter than
it, with one Symbol bits that start with a 1. -/
def Obligations.LeftoverIsAProperPrefix : Prop :=
  ∀ (ct : CodeTable) (rct : ReverseTable) (body : BitString), TableLegal ct rct → (scan rct body [] []).1 ≠ [] →
    (2 ≤ ct.length → ∃ e ∈ ct, (scan rct body [] []).1 <+: e.2 ∧ (scan rct body [] []).1.length < e.2.length) ∧
    (ct.length = 1 → (scan rct body [] []).1.head? = some true)

/-! ## Errors and flags -/

/-- R177, R176: after a command that ends with an error the persistent state is exactly the state before it, the output
is unspecified and `DONE` is 0. -/
def Obligations.ErrorsArePrecise : Prop :=
  ∀ s : State, ∀ i ∈ [Instr.compress, .decompress], ∃ t, exec i s = .next t ∧
    (t.err ≠ .none → t.ibuf = s.ibuf ∧ t.ilen = s.ilen ∧ t.ct = s.ct ∧ t.rct = s.rct ∧ t.tableValid = s.tableValid ∧
      t.done = false ∧ t.outputUnspecified ∧ t.phase = .idle ∧ t.script = s.script ∧ t.seen = s.seen)

/-- R27: after any command exactly one of `DONE = 1` and `ERR != 0` holds, whatever the flags were before; after reset
neither holds. -/
def Obligations.DoneOrErrorAfterACommand : Prop :=
  (∀ s : State, ∀ i ∈ [Instr.compress, .decompress], ∃ t, exec i s = .next t ∧ (t.done = true ↔ t.err = .none)) ∧
  (∀ s : State, (hostAccess .reset s).done = false ∧ (hostAccess .reset s).err = .none)

/-- R29: `TABLE_VALID` becomes 1 only by a `COMPRESS` that succeeds, and 0 only by reset. -/
def Obligations.TableValidChangesOnlyByCompressAndReset : Prop :=
  ∀ s t : State, s.phase = .idle → step s = .next t →
    (s.tableValid = false → t.tableValid = true →
      (∃ r, s.script = .command 0x01#8 :: r) ∧ t.done = true ∧ t.err = .none) ∧
    (s.tableValid = true → t.tableValid = false → ∃ r, s.script = .access .reset :: r)

/-- R174, R175: no step writes the reserved error kind `IOFailure`. -/
def Obligations.IoFailureIsNeverWritten : Prop :=
  ∀ s t : State, s.err ≠ .ioFailure → step s = .next t → t.err ≠ .ioFailure

/-! ## Whole runs -/

/-- R30, R26, ST8, R34: every step of a block between commands keeps the invariant: `PHASE` idle, one of the six
`STATUS` values, the buffers' form, and a legal table whenever one is held. -/
def Obligations.EveryStepKeepsTheInvariant : Prop :=
  ∀ s t : State, s.Inv → step s = .next t → t.Inv

/-- R43: the invariant holds after reset, and there `STATUS` reads 0x00 and no table is held. -/
def Obligations.ResetMeetsTheInvariant : Prop :=
  State.reset.Inv ∧ State.reset.status = 0x00#8 ∧ State.reset.tableValid = false

/-- R178, R216, R73: a run whose host writes only legal command words never stops. -/
def Obligations.LegalScriptsNeverStop : Prop :=
  ∀ s : State, Script.wellFormed s.script = true → s.SafeRun

/-- R163: compress, carry the output back to the input, decompress: the output is the trimmed input; where that is
empty the `COMPRESS` raises `EmptyAlphabet`. -/
def Obligations.RoundTripGivesTheTrimmedInput : Prop :=
  (∀ s : State, s.ibuf.wf = true → s.trimmedInput ≠ [] →
    ∃ t u, exec .compress s = .next t ∧ exec .decompress (hostAccess .copy t) = .next u ∧
      u.err = .none ∧ u.done = true ∧ u.resultIs s.trimmedInput) ∧
  (∀ s : State, s.trimmedInput = [] → ∃ t, exec .compress s = .next t ∧ t.err = .emptyAlphabet)

/-- R163, R90, R91: the whole round trip as a host script, from any idle state: the last read returns `STATUS = 0x03`,
the length of the text without its trailing white space, and that text. The number of steps counts `READ` and `COPY` as
one step each, the model's choice: log entry 17. -/
def Obligations.RoundTripThroughTheHostScript : Prop :=
  ∀ (s : State) (bs : List Byte) (r : List HostAction), s.phase = .idle → s.ibuf.wf = true →
    s.script = roundTripActions bs ++ r → bs.rdropWhile isWhite ≠ [] →
    ∃ t, Sys2Proof.core.run (bs.length + 6) s = .next t ∧ t.script = r ∧
      t.seen.getLast? = some (.result 0x03#8 (bs.rdropWhile isWhite).length (bs.rdropWhile isWhite))

/-- R164: decoding a compressed text cut by its last byte, with the table of that text, raises `CorruptPadding` or gives
a proper prefix of the text, never the text. -/
def Obligations.TruncationIsNeverSilent : Prop :=
  ∀ s t s' : State, s.trimmedInput ≠ [] → exec .compress s = .next t → s'.tableValid = true → s'.rct = t.rct →
    s'.input = ((List.range t.olen).map t.obufByte).dropLast →
    ∃ u, exec .decompress s' = .next u ∧
      (u.err = .corruptPadding ∨
        (u.err = .none ∧ ∃ x, u.resultIs x ∧ x <+: s.trimmedInput ∧ x.length < s.trimmedInput.length))

/-- R124, of R163: under every tie-break order of R124 the scan of a text's codes gives the text, with nothing left
over. -/
def Obligations.EveryTieOrderRoundTrips : Prop :=
  ∀ (tie : Config.Tie) (x : List Symbol), RefinesFrequency tie → x ≠ [] →
    ∃ ct, tableFor tie x = some ct ∧ scan (invert ct) (ct.bitsOf x) [] [] = ([], x)

/-- R124, of R115: under every tie-break order of R124 the tree of a frequency table with `N >= 1` Symbols has `2N - 1`
nodes, one of them left in the queue; the root's frequency is the sum of the counters; every node but the root is a
child of exactly one internal node; a left child's frequency is at most the right one's; internal nodes are created with
non-decreasing frequency. -/
def Obligations.EveryTieOrderBuildsAStrictTree : Prop :=
  ∀ (tie : Config.Tie) (f : FreqTable), RefinesFrequency tie → 1 ≤ (alphabet f).length →
    let t := buildTree tie f
    let n := (alphabet f).length
    t.node.length = 2 * n - 1 ∧ t.pq = [2 * n - 2] ∧ nodeFreq t.node (2 * n - 2) = ∑ a : Symbol, f.count a ∧
    (∀ j < t.node.length, j ≠ 2 * n - 2 →
      ∃! i : Nat, ∃ k l r : Nat, t.node[i]? = some (TreeNode.internal k l r) ∧ (j = l ∨ j = r)) ∧
    (∀ i k l r : Nat, t.node[i]? = some (TreeNode.internal k l r) →
      l ≠ r ∧ l < i ∧ r < i ∧ nodeFreq t.node l ≤ nodeFreq t.node r) ∧
    ∀ i j, n ≤ i → i ≤ j → j < t.node.length → nodeFreq t.node i ≤ nodeFreq t.node j
end

