-- ==== Sys2Proof/Laws/Bits.lean ====
section
/-!
SUPPORT. Bits and bytes: `bits8`, `val`, and that packing a stream into bytes and expanding it again gives the stream
(spec/00_scope.md R13, spec/20_memory.md R53, spec/40_encoder.md R126, R127).
-/

namespace Sys2Proof.Machine

@[simp] theorem length_bits8 (v : Byte) : (bits8 v).length = 8 := rfl

theorem getElem?_bits8 (v : Byte) {k : Nat} (h : k < 8) : (bits8 v)[k]? = some (v.getLsbD (7 - k)) := by
  interval_cases k <;> rfl

/-- `val(bits8(v)) = v` (R13). -/
@[simp] theorem val_bits8 : ∀ v : Byte, val (bits8 v) = v.toNat := by decide +kernel

/-- `bits8(val(b)) = b` when `len(b) = 8` (R13). -/
theorem bits8_val {b : BitString} (h : b.length = 8) : bits8 (BitVec.ofNat 8 (val b)) = b := by
  match b, h with
  | [a, b, c, d, e, f, g, i], _ =>
    cases a <;> cases b <;> cases c <;> cases d <;> cases e <;> cases f <;> cases g <;> cases i <;> rfl

theorem val_lt_of_length {b : BitString} (h : b.length = 8) : val b < 256 := by
  match b, h with
  | [a, b, c, d, e, f, g, i], _ =>
    cases a <;> cases b <;> cases c <;> cases d <;> cases e <;> cases f <;> cases g <;> cases i <;> decide

theorem testBit_val {b : BitString} (h : b.length = 8) {k : Nat} (hk : k < 8) :
    b[k]? = some ((val b).testBit (7 - k)) := by
  have := getElem?_bits8 (BitVec.ofNat 8 (val b)) hk
  rw [bits8_val h] at this
  rw [this, BitVec.getLsbD_ofNat]
  simp; omega

theorem length_flatMap_bits8 (bs : List Byte) : (bs.flatMap bits8).length = 8 * bs.length := by
  induction bs with
  | nil => rfl
  | cons b r ih => rw [List.flatMap_cons, List.length_append, ih, length_bits8, List.length_cons]; omega

/-- Stream bit `k` is bit `7 - k mod 8` of byte `k div 8` (R53). -/
theorem getElem?_flatMap_bits8 (bs : List Byte) (k : Nat) :
    (bs.flatMap bits8)[k]? = bs[k / 8]?.map fun b => b.getLsbD (7 - k % 8) := by
  induction bs generalizing k with
  | nil => simp
  | cons b r ih =>
    rw [List.flatMap_cons, List.getElem?_append]
    by_cases h : k < 8
    · rw [length_bits8, if_pos h, getElem?_bits8 b h, Nat.div_eq_of_lt h, Nat.mod_eq_of_lt h]; rfl
    · obtain ⟨d, rfl⟩ : ∃ d, k = d + 8 := ⟨k - 8, by omega⟩
      rw [length_bits8, if_neg h, Nat.add_sub_cancel, ih, Nat.add_div_right d (by decide : 0 < 8),
        List.getElem?_cons_succ, Nat.add_mod_right]

@[simp] theorem length_toBytes (st : BitString) : (toBytes st).length = st.length / 8 := by simp [toBytes]

theorem toBytes_append {a : BitString} (h : a.length = 8) (b : BitString) :
    toBytes (a ++ b) = BitVec.ofNat 8 (val a) :: toBytes b := by
  have hl : (a ++ b).length / 8 = b.length / 8 + 1 := by rw [List.length_append, h]; omega
  rw [toBytes, hl, List.range_succ_eq_map, List.map_cons, List.map_map]
  refine congrArg₂ _ ?_ ?_
  · simp [slice, h]
  · rw [toBytes]
    refine List.map_congr_left fun j _ => ?_
    have hd : (a ++ b).drop (8 * (j + 1)) = b.drop (8 * j) := by
      rw [show 8 * (j + 1) = a.length + 8 * j by rw [h]; omega]; simp [List.drop_append]
    simp only [Function.comp, slice, Nat.succ_eq_add_one, hd, Nat.add_sub_cancel_left]

/-- Splitting a stream of whole bytes into bytes and expanding them again gives the stream (R127, R144). -/
theorem flatMap_bits8_toBytes (n : Nat) (st : BitString) (h : st.length = 8 * n) :
    (toBytes st).flatMap bits8 = st := by
  induction n generalizing st with
  | zero => obtain rfl := List.length_eq_zero_iff.1 h; rfl
  | succ n ih =>
    have h8 : (st.take 8).length = 8 := by rw [List.length_take]; omega
    conv_lhs => rw [← List.take_append_drop 8 st, toBytes_append h8, List.flatMap_cons, bits8_val h8]
    rw [ih _ (by rw [List.length_drop]; omega), List.take_append_drop]

theorem padAmount_lt (l : Nat) : padAmount l < 8 := Nat.mod_lt _ (by decide)

theorem padAmount_aligns (l : Nat) : (l + padAmount l) % 8 = 0 := by unfold padAmount; omega

theorem length_streamOf (pad : Nat) (bits : BitString) : (streamOf pad bits).length = 8 + bits.length + pad := by
  simp [streamOf]; omega

end Sys2Proof.Machine
end

