-- ==== Sys2Proof/Laws/Queue.lean ====
section
/-!
SUPPORT. Counting and the priority queue (spec/40_encoder.md R106, R111 to R114).
-/

namespace Sys2Proof.Machine

/-! ## Counting (R106, R107) -/

@[simp] theorem count_countSymbols (t : List Symbol) (a : Symbol) : (countSymbols t).count a = t.count a := by
  unfold countSymbols; simp [FreqTable.count]

theorem mem_allSymbols (a : Symbol) : a ∈ allSymbols := by
  unfold allSymbols; exact
  List.mem_map.2 ⟨a.toNat, List.mem_range.2 a.isLt, by simp⟩

theorem allSymbols_sorted : allSymbols.Pairwise fun a b => a.toNat < b.toNat := by
  unfold allSymbols; rw [List.pairwise_map]
  refine List.pairwise_lt_range.imp_of_mem fun {a b} ha hb h => ?_
  simp only [List.mem_range] at ha hb
  simp only [BitVec.toNat_ofNat]; omega

theorem zip_allSymbols (f : FreqTable) : allSymbols.zip f.toList = allSymbols.map fun a => (a, f.count a) := by
  unfold allSymbols
  refine List.ext_getElem (by simp) fun i h1 h2 => ?_
  have hi : i < 256 := by simpa using h2
  simp [FreqTable.count, Nat.mod_eq_of_lt hi]

theorem alphabet_eq_filter (f : FreqTable) : alphabet f = allSymbols.filter fun a => 0 < f.count a := by
  rw [alphabet, zip_allSymbols, List.filter_map, List.map_map]
  show List.map (fun a => a) _ = _
  rw [List.map_id']; rfl

@[simp] theorem mem_alphabet (f : FreqTable) (a : Symbol) : a ∈ alphabet f ↔ 0 < f.count a := by
  simp [alphabet_eq_filter, mem_allSymbols]

theorem alphabet_sorted (f : FreqTable) : (alphabet f).Pairwise fun a b => a.toNat < b.toNat :=
  alphabet_eq_filter f ▸ allSymbols_sorted.filter _

theorem alphabet_nodup (f : FreqTable) : (alphabet f).Nodup :=
  (alphabet_sorted f).imp fun h e => by simp [e] at h

theorem allSymbols_nodup : allSymbols.Nodup := allSymbols_sorted.imp fun h e => by simp [e] at h

theorem alphabet_countSymbols_eq_nil (t : List Symbol) : alphabet (countSymbols t) = [] ↔ t = [] := by
  constructor
  · intro h
    refine List.eq_nil_iff_forall_not_mem.2 fun a ha => ?_
    have : a ∈ alphabet (countSymbols t) := by simpa [List.count_pos_iff] using ha
    rw [h] at this; simp at this
  · exact fun h => List.eq_nil_iff_forall_not_mem.2 fun a => by simp [h]

/-! ## The queue (R113) -/

theorem refinesFrequency_tie : RefinesFrequency Config.tie := by
  refine ⟨?_, ?_, ?_, ?_⟩
  · intro a b h; simp [Config.tie, h]
  · intro a; simp [Config.tie]
  · intro a b c; simp [Config.tie]; omega
  · rintro ⟨a, b⟩ ⟨c, d⟩; simp [Config.tie]; omega

variable {tie : Config.Tie} {node : List TreeNode}

theorem least_eq_none {pq : List Nat} : least tie node pq = none ↔ pq = [] := by
  match pq with
  | [] => simp [least]
  | i :: r => 
    cases h : least tie node r <;> simp [least, h]
    split_ifs <;> simp

/-- The member found stands before every other member. -/
theorem least_spec (ht : RefinesFrequency tie) {pq : List Nat} {i : Nat} (h : least tie node pq = some i) :
    i ∈ pq ∧ ∀ j ∈ pq, j ≠ i → tie (nodeKey node i) (nodeKey node j) = true := by
  obtain ⟨-, hirr, htr, htot⟩ := ht
  have hne : ∀ {a b : Nat}, a ≠ b → nodeKey node a ≠ nodeKey node b := fun h e => h (congrArg Prod.snd e)
  induction pq generalizing i with
  | nil => simp [least] at h
  | cons x r ih =>
    cases hr : least tie node r with
    | none =>
      obtain rfl := least_eq_none.1 hr
      simp only [least, Option.some.injEq] at h
      subst h; simp
    | some y =>
      obtain ⟨hy, hall⟩ := ih hr
      simp only [least, hr] at h
      split_ifs at h with hxy <;> simp only [Option.some.injEq] at h <;> subst h
      · refine ⟨List.mem_cons_of_mem _ hy, fun j hj hji => ?_⟩
        rcases List.mem_cons.1 hj with rfl | hj
        · exact hxy
        · exact hall j hj hji
      · refine ⟨List.mem_cons_self, fun j hj hji => ?_⟩
        rcases List.mem_cons.1 hj with rfl | hj
        · exact absurd rfl hji
        · by_cases hyx : y = x
          · exact hyx ▸ hall j hj (hyx ▸ hji)
          · have h1 : tie (nodeKey node x) (nodeKey node y) = true :=
              (htot _ _ (hne (Ne.symm hyx))).resolve_right hxy
            by_cases hjy : j = y
            · subst hjy; exact h1
            · exact htr _ _ _ h1 (hall j hj hjy)

theorem popMin_eq_none {pq : List Nat} : popMin tie node pq = none ↔ pq = [] := by
  simp [popMin, least_eq_none]

/-- `popmin` (R113): the member popped is in the queue and stands before every other one; the rest stays. -/
theorem popMin_spec (ht : RefinesFrequency tie) {pq q : List Nat} {i : Nat} (h : popMin tie node pq = some (i, q)) :
    i ∈ pq ∧ q = pq.erase i ∧ ∀ j ∈ pq, j ≠ i → tie (nodeKey node i) (nodeKey node j) = true := by
  obtain ⟨k, hk, e⟩ := Option.map_eq_some_iff.1 h
  cases e
  exact ⟨(least_spec ht hk).1, rfl, (least_spec ht hk).2⟩

/-- One merge (R114): with fewer than two members there is none; otherwise the two least members `a`, then `b`, leave
the queue, and the node that has them as children is created and joins it. -/
theorem mergeStep_spec (ht : RefinesFrequency tie) (f : Forest) (hn : f.pq.Nodup) :
    (f.pq.length < 2 ∧ mergeStep tie f = none) ∨
    ∃ a b, a ∈ f.pq ∧ b ∈ f.pq ∧ a ≠ b ∧
      tie (nodeKey f.node a) (nodeKey f.node b) = true ∧
      (∀ j ∈ f.pq, j ≠ a → j ≠ b → tie (nodeKey f.node b) (nodeKey f.node j) = true) ∧
      mergeStep tie f = some
        { node := f.node ++ [.internal (nodeFreq f.node a + nodeFreq f.node b) a b]
          pq := (f.pq.erase a).erase b ++ [f.node.length] } := by
  cases h1 : popMin tie f.node f.pq with
  | none =>
    refine .inl ⟨?_, by simp [mergeStep, h1]⟩
    simp [popMin_eq_none.1 h1]
  | some p =>
    obtain ⟨a, q⟩ := p
    obtain ⟨ha, rfl, hmin⟩ := popMin_spec ht h1
    cases h2 : popMin tie f.node (f.pq.erase a) with
    | none =>
      refine .inl ⟨?_, by simp [mergeStep, h1, h2]⟩
      have := List.length_erase_of_mem ha
      rw [popMin_eq_none.1 h2] at this
      simp at this; omega
    | some p =>
      obtain ⟨b, q⟩ := p
      obtain ⟨hb, rfl, hmin'⟩ := popMin_spec ht h2
      have hab := (hn.mem_erase_iff.1 hb).1
      refine .inr ⟨a, b, ha, (hn.mem_erase_iff.1 hb).2, hab.symm, hmin b (hn.mem_erase_iff.1 hb).2 hab, ?_, ?_⟩
      · exact fun j hj hja hjb => hmin' j (hn.mem_erase_iff.2 ⟨hja, hj⟩) hjb
      · simp [mergeStep, h1, h2]

end Sys2Proof.Machine
end

