-- ==== Sys2Proof/Laws/Tree.lean ====
section
/-!
SUPPORT. Code tables as maps, and the tree `buildTree` makes, seen as a recursive type (spec/40_encoder.md R114 to R121).
-/

namespace Sys2Proof.Machine

/-! ## Code tables as maps (R14) -/

theorem CodeTable.mem_set {ct : CodeTable} {a : Symbol} {c : BitString} {e : Symbol × BitString} (h : ct.wf) :
    e ∈ ct.set a c ↔ e = (a, c) ∨ (e ∈ ct ∧ e.1 ≠ a) := by
  induction ct with
  | nil => simp [CodeTable.set]
  | cons d r ih =>
    obtain ⟨hd, hr⟩ := List.pairwise_cons.1 h
    have hgt : ∀ x ∈ r, d.1.toNat < x.1.toNat := hd
    unfold CodeTable.set
    split_ifs with h1 h2
    · have : ∀ x ∈ d :: r, x.1 ≠ a := by
        rintro x hx rfl
        rcases List.mem_cons.1 hx with rfl | hx
        · omega
        · have := hgt x hx; omega
      rw [List.mem_cons]
      constructor
      · rintro (h | h)
        · exact .inl h
        · exact .inr ⟨h, this e h⟩
      · rintro (h | h)
        · exact .inl h
        · exact .inr h.1
    · subst h2
      have : ∀ x ∈ r, x.1 ≠ d.1 := fun x hx e => by have := hgt x hx; rw [e] at this; omega
      simp only [List.mem_cons]
      constructor
      · rintro (h | h)
        · exact .inl h
        · exact .inr ⟨.inr h, this e h⟩
      · rintro (h | ⟨rfl | h, hne⟩)
        · exact .inl h
        · exact absurd rfl hne
        · exact .inr h
    · simp only [List.mem_cons, ih hr]
      constructor
      · rintro (rfl | h | h)
        · exact .inr ⟨.inl rfl, Ne.symm h2⟩
        · exact .inl h
        · exact .inr ⟨.inr h.1, h.2⟩
      · rintro (h | ⟨rfl | h, hne⟩)
        · exact .inr (.inl h)
        · exact .inl rfl
        · exact .inr (.inr ⟨h, hne⟩)

theorem CodeTable.wf_set {ct : CodeTable} (h : ct.wf) (a : Symbol) (c : BitString) : (ct.set a c).wf := by
  induction ct with
  | nil => simp [CodeTable.set, CodeTable.wf]
  | cons d r ih =>
    obtain ⟨hd, hr⟩ := List.pairwise_cons.1 h
    unfold CodeTable.set
    split_ifs with h1 h2
    · refine List.pairwise_cons.2 ⟨fun x hx => ?_, h⟩
      rcases List.mem_cons.1 hx with rfl | hx
      · exact h1
      · exact h1.trans (hd x hx)
    · exact List.pairwise_cons.2 ⟨fun x hx => h2 ▸ hd x hx, hr⟩
    · refine List.pairwise_cons.2 ⟨fun x hx => ?_, ih hr⟩
      rcases (CodeTable.mem_set hr).1 hx with rfl | hx
      · have : a.toNat ≠ d.1.toNat := fun e => h2 (BitVec.eq_of_toNat_eq e)
        show d.1.toNat < a.toNat
        omega
      · exact hd x hx.1

theorem CodeTable.code?_eq_some {ct : CodeTable} (h : ct.wf) {a : Symbol} {c : BitString} :
    ct.code? a = some c ↔ (a, c) ∈ ct := by
  induction ct with
  | nil => simp [CodeTable.code?]
  | cons d r ih =>
    obtain ⟨x, y⟩ := d
    obtain ⟨hd, hr⟩ := List.pairwise_cons.1 h
    by_cases e : a = x
    · subst e
      have : (a, c) ∉ r := fun hm => by have := hd _ hm; simp at this
      simp [CodeTable.code?, List.lookup, this, eq_comm]
    · have := ih hr
      simp only [CodeTable.code?] at this ⊢
      simp [List.lookup, beq_eq_false_iff_ne.2 e, this, e]

theorem CodeTable.has_iff_isSome {ct : CodeTable} (h : ct.wf) (a : Symbol) : ct.has a ↔ (ct.code? a).isSome := by
  rw [Option.isSome_iff_exists]
  exact exists_congr fun c => (CodeTable.code?_eq_some h).symm

/-! ## Trees as a recursive type, to reason about `NODE` -/

/-- A binary tree with Symbols and frequencies at its leaves. -/
inductive HTree where
  | leaf (freq : Nat) (sym : Symbol)
  | node (freq : Nat) (l r : HTree)

namespace HTree

/-- Node `i` of a node array is the root of this tree. -/
def standsAt (node : List TreeNode) : HTree → Nat → Prop
  | .leaf f s, i => node[i]? = some (TreeNode.leaf f s)
  | .node f l r, i =>
    ∃ a b : Nat, node[i]? = some (TreeNode.internal f a b) ∧ standsAt node l a ∧ standsAt node r b

/-- The frequency of the root. -/
def freq : HTree → Nat
  | .leaf f _ => f
  | .node f _ _ => f

@[simp] theorem freq_node (f : Nat) (l r : HTree) : (HTree.node f l r).freq = f := rfl

/-- Every inner node's frequency is the sum of its children's. -/
def weighted : HTree → Prop
  | .leaf _ _ => True
  | .node f l r => f = l.freq + r.freq ∧ l.weighted ∧ r.weighted

/-- The leaves' Symbols, left to right. -/
def syms : HTree → List Symbol
  | .leaf _ s => [s]
  | .node _ l r => l.syms ++ r.syms

/-- The leaves with their paths, left to right, each path after the given one. -/
def entries : HTree → BitString → List (Symbol × BitString)
  | .leaf _ s, p => [(s, p)]
  | .node _ l r, p => l.entries (p ++ [false]) ++ r.entries (p ++ [true])

theorem standsAt_append {node more : List TreeNode} {t : HTree} {i : Nat} (h : t.standsAt node i) :
    t.standsAt (node ++ more) i := by
  induction t generalizing i with
  | leaf f s => exact (List.getElem?_append_left (List.getElem?_eq_some_iff.1 h).1).trans h
  | node f l r hl hr =>
    obtain ⟨a, b, e, ha, hb⟩ := h
    exact ⟨a, b, (List.getElem?_append_left (List.getElem?_eq_some_iff.1 e).1).trans e, hl ha, hr hb⟩

theorem nodeFreq_of_standsAt {node : List TreeNode} {t : HTree} {i : Nat} (h : t.standsAt node i) :
    nodeFreq node i = t.freq := by
  cases t with
  | leaf f s => simp only [standsAt] at h; simp [nodeFreq, h, freq, TreeNode.freq]
  | node f l r => obtain ⟨a, b, e, -, -⟩ := h; simp [nodeFreq, e, freq, TreeNode.freq]

theorem map_fst_entries (t : HTree) (p : BitString) : (t.entries p).map Prod.fst = t.syms := by
  induction t generalizing p with
  | leaf f s => rfl
  | node f l r hl hr => simp [entries, syms, hl, hr]

theorem syms_length_pos (t : HTree) : 0 < t.syms.length := by
  induction t with
  | leaf f s => simp [syms]
  | node f l r hl hr => simp [syms]; omega

theorem entries_append (t : HTree) (p q : BitString) :
    t.entries (p ++ q) = (t.entries q).map fun e => (e.1, p ++ e.2) := by
  induction t generalizing q with
  | leaf f s => simp [entries]
  | node f l r hl hr => simp [entries, hl, hr]

/-- Every path has the given one as a prefix, and is longer by less than the number of leaves. -/
theorem entries_length {t : HTree} {p : BitString} {e : Symbol × BitString} (h : e ∈ t.entries p) :
    p <+: e.2 ∧ e.2.length + 1 ≤ p.length + t.syms.length := by
  induction t generalizing p with
  | leaf f s => simp [entries] at h; subst h; simp [syms]
  | node f l r hl hr =>
    have := l.syms_length_pos
    have := r.syms_length_pos
    rcases List.mem_append.1 h with h | h
    · obtain ⟨h1, h2⟩ := hl h
      refine ⟨(List.prefix_append _ _).trans h1, ?_⟩
      simp [syms] at h2 ⊢; omega
    · obtain ⟨h1, h2⟩ := hr h
      refine ⟨(List.prefix_append _ _).trans h1, ?_⟩
      simp [syms] at h2 ⊢; omega

/-- The paths of a tree from node `i` on are what `assign` enters (R118). -/
theorem assign_eq {node : List TreeNode} {t : HTree} {i : Nat} (h : t.standsAt node i) {k : Nat}
    (hk : t.syms.length ≤ k) (p : BitString) (ct : CodeTable) :
    assign node k i p ct = some ((t.entries p).foldl (fun ct e => ct.set e.1 e.2) ct) := by
  induction t generalizing i k p ct with
  | leaf f s =>
    obtain ⟨k, rfl⟩ : ∃ m, k = m + 1 := ⟨k - 1, by simp [syms] at hk; omega⟩
    simp only [standsAt] at h
    simp [assign, h, entries]
  | node f l r hl hr =>
    obtain ⟨a, b, e, ha, hb⟩ := h
    have := l.syms_length_pos
    have := r.syms_length_pos
    simp only [syms, List.length_append] at hk
    obtain ⟨k, rfl⟩ : ∃ m, k = m + 1 := ⟨k - 1, by omega⟩
    simp only [assign, e, hl ha (by omega : l.syms.length ≤ k), Option.bind_some,
      hr hb (by omega : r.syms.length ≤ k), entries, List.foldl_append]

end HTree

/-- Entering a list of entries with distinct Symbols makes a map with exactly those entries. -/
theorem foldl_set_spec {es : List (Symbol × BitString)} {ct : CodeTable} (h : ct.wf)
    (hn : (es.map Prod.fst).Nodup) (hd : ∀ e ∈ es, ∀ x ∈ ct, x.1 ≠ e.1) :
    (es.foldl (fun ct e => ct.set e.1 e.2) ct).wf ∧
      ∀ x, x ∈ es.foldl (fun ct e => ct.set e.1 e.2) ct ↔ x ∈ ct ∨ x ∈ es := by
  induction es generalizing ct with
  | nil => exact ⟨h, by simp⟩
  | cons e r ih =>
    simp only [List.map_cons, List.nodup_cons, List.mem_map, not_exists, not_and] at hn
    have hmem : ∀ x, x ∈ ct.set e.1 e.2 ↔ x = e ∨ x ∈ ct := by
      intro x
      rw [CodeTable.mem_set h]
      constructor
      · rintro (h | h)
        · exact .inl h
        · exact .inr h.1
      · rintro (h | h)
        · exact .inl h
        · exact .inr ⟨h, hd e List.mem_cons_self x h⟩
    obtain ⟨hw, hall⟩ := ih (CodeTable.wf_set h e.1 e.2) hn.2 (by
      intro y hy x hx
      rcases (hmem x).1 hx with rfl | hx
      · exact fun eq => hn.1 y hy eq.symm
      · exact hd y (List.mem_cons_of_mem _ hy) x hx)
    refine ⟨hw, fun x => (hall x).trans ?_⟩
    rw [hmem, List.mem_cons]
    tauto

/-- What holds of the forest at every point of the merge loop on a frequency table with `n` Symbols: the queue's
members are nodes, none twice, the newest node last; each is the root of a weighted tree; those trees' leaves are the
alphabet; the first `n` nodes are the leaves (R111 to R115). -/
structure ForestOk (fr : FreqTable) (f : Forest) : Prop where
  nodup : f.pq.Nodup
  lt : ∀ i ∈ f.pq, i < f.node.length
  newest : f.pq.getLast? = some (f.node.length - 1)
  count : f.node.length + f.pq.length = 2 * (alphabet fr).length
  leaves : ∃ inner, f.node = leaves fr ++ inner
  trees : ∃ t : Nat → HTree, (∀ i ∈ f.pq, (t i).standsAt f.node i ∧ (t i).weighted) ∧
    (f.pq.flatMap fun i => (t i).syms).Perm (alphabet fr) ∧
    (f.pq.map fun i => (t i).freq).sum = ((alphabet fr).map fr.count).sum

theorem length_leaves (fr : FreqTable) : (leaves fr).length = (alphabet fr).length := by simp [leaves]

theorem getElem?_leaves (fr : FreqTable) {k : Nat} (h : k < (alphabet fr).length) :
    (leaves fr)[k]? = some (TreeNode.leaf (fr.count (alphabet fr)[k]) (alphabet fr)[k]) := by
  simp [leaves, h]

theorem map_range_getD {α β : Type} (l : List α) (d : α) (f : α → β) :
    ((List.range l.length).map fun i => f (l.getD i d)) = l.map f := by
  refine List.ext_getElem (by simp) fun i h1 h2 => ?_
  simp at h1
  simp [h1]

/-- The invariant holds of the leaves alone. -/
theorem forestOk_leafForest {fr : FreqTable} (h : alphabet fr ≠ []) : ForestOk fr (leafForest fr) where
  nodup := List.nodup_range
  lt := by simp [leafForest]
  newest := by
    have := List.length_pos_iff.2 h
    obtain ⟨m, hm⟩ : ∃ m, (alphabet fr).length = m + 1 := ⟨(alphabet fr).length - 1, by omega⟩
    simp [leafForest, length_leaves, hm, List.range_succ]
  count := by simp [leafForest, length_leaves]; omega
  leaves := ⟨[], by simp [leafForest]⟩
  trees := by
    refine ⟨fun i => .leaf (fr.count ((alphabet fr).getD i 0)) ((alphabet fr).getD i 0), ?_, ?_, ?_⟩
    · intro i hi
      have hi' : i < (alphabet fr).length := by simpa [leafForest, length_leaves] using hi
      refine ⟨?_, trivial⟩
      simp [HTree.standsAt, leafForest, getElem?_leaves fr hi', hi']
    · simp only [HTree.syms, leafForest, length_leaves]
      rw [List.flatMap_def]
      have e : (List.range (alphabet fr).length).map (fun i => [(alphabet fr).getD i 0])
          = (alphabet fr).map fun a => [a] := map_range_getD (alphabet fr) 0 fun a => [a]
      rw [e, ← List.flatMap_def, List.flatMap_singleton']
    · simp only [HTree.freq, leafForest, length_leaves]
      rw [map_range_getD (alphabet fr) 0 fr.count]

variable {tie : Config.Tie}

/-- A merge keeps the invariant and takes one member off the queue. -/
theorem forestOk_mergeStep (ht : RefinesFrequency tie) {fr : FreqTable} {f f' : Forest} (hf : ForestOk fr f)
    (h : mergeStep tie f = some f') : ForestOk fr f' ∧ f'.pq.length + 1 = f.pq.length := by
  rcases mergeStep_spec ht f hf.nodup with ⟨-, hn⟩ | ⟨a, b, ha, hb, hab, -, -, he⟩
  · rw [hn] at h; cases h
  · rw [he] at h; cases h
    have hb' : b ∈ f.pq.erase a := hf.nodup.mem_erase_iff.2 ⟨hab.symm, hb⟩
    have hperm : f.pq.Perm (a :: b :: (f.pq.erase a).erase b) :=
      (List.perm_cons_erase ha).trans ((List.perm_cons_erase hb').cons a)
    have hlen : f.pq.length = ((f.pq.erase a).erase b).length + 2 := by simpa using hperm.length_eq
    have hsub : ∀ i ∈ (f.pq.erase a).erase b, i ∈ f.pq := fun i hi => List.mem_of_mem_erase (List.mem_of_mem_erase hi)
    have hlast : f.node.length ∉ (f.pq.erase a).erase b := fun hm => lt_irrefl _ (hf.lt _ (hsub _ hm))
    obtain ⟨inner, hinner⟩ := hf.leaves
    obtain ⟨t, htree, hsyms, hsum⟩ := hf.trees
    refine ⟨⟨?_, ?_, ?_, ?_, ?_, ?_⟩, by simp [hlen]⟩
    · exact List.nodup_append.2 ⟨(hf.nodup.erase a).erase b, by simp, by
        rintro x hx y hy rfl
        simp only [List.mem_singleton] at hy
        exact hlast (hy ▸ hx)⟩
    · intro i hi
      simp only [List.mem_append, List.mem_singleton] at hi
      simp only [List.length_append, List.length_singleton]
      rcases hi with hi | rfl
      · exact (hf.lt _ (hsub _ hi)).trans (Nat.lt_succ_self _)
      · exact Nat.lt_succ_self _
    · simp
    · have := hf.count
      simp only [List.length_append, List.length_singleton]; omega
    · exact ⟨inner ++ [_], by rw [hinner, List.append_assoc]⟩
    · have hta := htree a ha
      have htb := htree b hb
      have hold : ∀ i ∈ (f.pq.erase a).erase b, i ≠ f.node.length := fun i hi e => hlast (e ▸ hi)
      refine ⟨Function.update t f.node.length (.node (nodeFreq f.node a + nodeFreq f.node b) (t a) (t b)), ?_, ?_, ?_⟩
      · intro i hi
        simp only [List.mem_append, List.mem_singleton] at hi
        rcases hi with hi | rfl
        · rw [Function.update_of_ne (hold i hi)]
          exact ⟨HTree.standsAt_append (htree i (hsub i hi)).1, (htree i (hsub i hi)).2⟩
        · rw [Function.update_self]
          refine ⟨⟨a, b, by simp, HTree.standsAt_append hta.1, HTree.standsAt_append htb.1⟩, ?_, hta.2, htb.2⟩
          rw [HTree.nodeFreq_of_standsAt hta.1, HTree.nodeFreq_of_standsAt htb.1]
      · refine List.Perm.trans ?_ ((hperm.flatMap_right fun i => (t i).syms).symm.trans hsyms)
        have e : ((f.pq.erase a).erase b).flatMap (fun i => (Function.update t f.node.length
            (.node (nodeFreq f.node a + nodeFreq f.node b) (t a) (t b)) i).syms)
            = ((f.pq.erase a).erase b).flatMap fun i => (t i).syms :=
          List.flatMap_congr fun i hi => by rw [Function.update_of_ne (hold i hi)]
        simp only [List.flatMap_append, List.flatMap_cons, List.flatMap_nil, List.append_nil, Function.update_self, e]
        rw [← List.append_assoc]
        exact List.perm_append_comm
      · rw [← hsum, (hperm.map fun i => (t i).freq).sum_eq]
        have e (x : HTree) : ((f.pq.erase a).erase b).map (fun i => (Function.update t f.node.length x i).freq)
            = ((f.pq.erase a).erase b).map fun i => (t i).freq :=
          List.map_congr_left fun i hi => by rw [Function.update_of_ne (hold i hi)]
        simp only [List.map_append, List.sum_append, List.map_cons, List.map_nil, List.sum_cons, List.sum_nil,
          Function.update_self, e, HTree.freq_node, HTree.nodeFreq_of_standsAt hta.1, HTree.nodeFreq_of_standsAt htb.1]
        omega

/-- What every merge keeps holds when the loop stops, with one member left in the queue (R115). -/
theorem mergeLoop_induction (ht : RefinesFrequency tie) {fr : FreqTable} {motive : Forest → Prop}
    (hstep : ∀ f f', ForestOk fr f → motive f → mergeStep tie f = some f' → motive f') :
    ∀ (k : Nat) (f : Forest), ForestOk fr f → motive f → f.pq.length ≤ k + 1 →
      ForestOk fr (mergeLoop tie k f) ∧ motive (mergeLoop tie k f) ∧ (mergeLoop tie k f).pq.length = 1 := by
  intro k
  induction k with
  | zero =>
    intro f hf hm hk
    have : f.pq ≠ [] := fun e => by have := hf.newest; simp [e] at this
    have := List.length_pos_iff.2 this
    exact ⟨hf, hm, by simp [mergeLoop]; omega⟩
  | succ k ih =>
    intro f hf hm hk
    rcases mergeStep_spec ht f hf.nodup with ⟨hlen, hn⟩ | ⟨_, _, _, _, _, _, _, he⟩
    · have : f.pq ≠ [] := fun e => by have := hf.newest; simp [e] at this
      have := List.length_pos_iff.2 this
      simp only [mergeLoop, hn]
      exact ⟨hf, hm, by omega⟩
    · simp only [mergeLoop, he]
      obtain ⟨hf', hl⟩ := forestOk_mergeStep ht hf he
      exact ih _ hf' (hstep _ _ hf hm he) (by omega)

/-- The tree of a frequency table (R110 to R115): `2N - 1` nodes, the leaves first, the last one the root and the one
member left in the queue; at the root stands a weighted tree whose leaves are the alphabet. -/
theorem buildTree_spec (ht : RefinesFrequency tie) {fr : FreqTable} (h : alphabet fr ≠ []) :
    ForestOk fr (buildTree tie fr) ∧ (buildTree tie fr).pq = [2 * (alphabet fr).length - 2] ∧
      (buildTree tie fr).node.length = 2 * (alphabet fr).length - 1 ∧
      ∃ t : HTree, t.standsAt (buildTree tie fr).node (2 * (alphabet fr).length - 2) ∧ t.weighted ∧
        t.syms.Perm (alphabet fr) ∧ t.freq = ((alphabet fr).map fr.count).sum := by
  obtain ⟨hf, -, hl⟩ := mergeLoop_induction ht (fr := fr) (motive := fun _ => True) (fun _ _ _ _ _ => trivial)
    (leafForest fr).pq.length (leafForest fr) (forestOk_leafForest h) trivial (by omega)
  have hpos := List.length_pos_iff.2 h
  have hcount := hf.count
  rw [hl] at hcount
  obtain ⟨r, hr⟩ := List.length_eq_one_iff.1 hl
  have hlast := hf.newest
  rw [hr] at hlast
  simp only [List.getLast?_singleton, Option.some.injEq] at hlast
  have hroot : r = 2 * (alphabet fr).length - 2 := by omega
  obtain ⟨t, h1, h2, h3⟩ := hf.trees
  rw [hr] at h1 h2 h3
  refine ⟨hf, by rw [buildTree, hr, hroot], by rw [buildTree]; omega, t r, ?_, ?_, ?_, ?_⟩
  · exact hroot ▸ (h1 r (by simp)).1
  · exact (h1 r (by simp)).2
  · simpa using h2
  · simpa using h3

/-- The table of a tree (R118, R119): for a strict tree of at least two leaves, exactly the leaf paths. -/
theorem codes_of_standsAt {node : List TreeNode} {t : HTree} {root : Nat} (h : t.standsAt node root)
    (hk : t.syms.length ≤ node.length) (hn : t.syms.Nodup) :
    ∃ ct, codes node root = some ct ∧ ct.wf ∧
      (∀ e, e ∈ ct ↔ (t.syms.length = 1 ∧ e.1 ∈ t.syms ∧ e.2 = [false]) ∨ (2 ≤ t.syms.length ∧ e ∈ t.entries [])) := by
  cases t with
  | leaf f s =>
    simp only [HTree.standsAt] at h
    refine ⟨[(s, [false])], by simp [codes, h, CodeTable.set], by simp [CodeTable.wf], fun e => ?_⟩
    simp [HTree.syms, Prod.ext_iff]
  | node f l r =>
    have hl := l.syms_length_pos
    have hr := r.syms_length_pos
    obtain ⟨a, b, e, -, -⟩ := id h
    obtain ⟨hw, hall⟩ := foldl_set_spec (ct := []) (es := (HTree.node f l r).entries []) (by simp [CodeTable.wf])
      (by rw [HTree.map_fst_entries]; exact hn) (by simp)
    refine ⟨_, by simp only [codes, e]; exact HTree.assign_eq h hk [] [], hw, fun x => ?_⟩
    rw [hall]
    simp only [List.not_mem_nil, false_or, HTree.syms, List.length_append]
    constructor
    · exact fun hx => .inr ⟨by omega, hx⟩
    · rintro (⟨h1, -⟩ | ⟨-, hx⟩)
      · omega
      · exact hx

end Sys2Proof.Machine
end

