-- ==== Sys2Proof/Laws/Codes.lean ====
section
/-!
SUPPORT. The codes of a tree (spec/40_encoder.md R118 to R122) and the scan that reads them (spec/41_decoder.md R152, R163).
-/

namespace Sys2Proof.Machine

namespace HTree

theorem ne_of_branches {p a b : BitString} (ha : p ++ [false] <+: a) (hb : p ++ [true] <+: b) (h : a <+: b ∨ b <+: a) :
    False := by
  have key : ∀ {x y : Bit} {c : BitString}, p ++ [x] <+: c → p ++ [y] <+: c → x = y := by
    intro x y c h1 h2
    have := (List.prefix_of_prefix_length_le h1 h2 (by simp)).eq_of_length (by simp)
    simpa using this
  rcases h with h | h
  · exact Bool.noConfusion (key (ha.trans h) hb)
  · exact Bool.noConfusion (key ha (hb.trans h))

/-- No leaf is an ancestor of another, so no path is a prefix of another leaf's path (R122 (a)). -/
theorem eq_of_entries_prefix {t : HTree} {p : BitString} {e e' : Symbol × BitString} (h : e ∈ t.entries p)
    (h' : e' ∈ t.entries p) (hp : e.2 <+: e'.2) : e = e' := by
  induction t generalizing p with
  | leaf f s => simp [entries] at h h'; rw [h, h']
  | node f l r hl hr =>
    rcases List.mem_append.1 h with h | h <;> rcases List.mem_append.1 h' with h' | h'
    · exact hl h h'
    · exact (ne_of_branches (entries_length h).1 (entries_length h').1 (.inl hp)).elim
    · exact (ne_of_branches (entries_length h').1 (entries_length h).1 (.inr hp)).elim
    · exact hr h h'

/-- Every bit sequence that starts with the given path goes through a leaf (R34 (f)). -/
theorem exists_entry_on_stream (t : HTree) (f : Nat → Bit) {p : BitString} (hp : p = (List.range p.length).map f) :
    ∃ e ∈ t.entries p, e.2 = (List.range e.2.length).map f := by
  induction t generalizing p with
  | leaf k s => exact ⟨(s, p), by simp [entries], hp⟩
  | node k l r hl hr =>
    have hnext : ∀ b : Bit, f p.length = b → p ++ [b] = (List.range (p ++ [b]).length).map f := by
      rintro b rfl
      rw [List.length_append, List.length_singleton, List.range_succ, List.map_append, ← hp]; rfl
    cases hb : f p.length with
    | false =>
      obtain ⟨e, he, hs⟩ := hl (hnext _ hb)
      exact ⟨e, List.mem_append.2 (.inl he), hs⟩
    | true =>
      obtain ⟨e, he, hs⟩ := hr (hnext _ hb)
      exact ⟨e, List.mem_append.2 (.inr he), hs⟩

/-- The Kraft sum of the paths of a strict tree (R122 (d)). -/
theorem kraft_entries (t : HTree) (p : BitString) :
    ((t.entries p).map fun e => (1 / 2 : ℚ) ^ e.2.length).sum = (1 / 2 : ℚ) ^ p.length := by
  induction t generalizing p with
  | leaf f s => simp [entries]
  | node f l r hl hr =>
    simp only [entries, List.map_append, List.sum_append, hl, hr, List.length_append, List.length_singleton, pow_succ]
    ring

end HTree

/-- Two prefixes of one stream are prefixes of each other one way or the other. -/
theorem prefix_total_of_stream {f : Nat → Bit} {a b : BitString} (ha : a = (List.range a.length).map f)
    (hb : b = (List.range b.length).map f) (h : a.length ≤ b.length) : a <+: b := by
  rw [ha, hb]
  exact List.IsPrefix.map f ⟨(List.range b.length).drop a.length, by
    conv_rhs => rw [← List.take_append_drop a.length (List.range b.length)]
    rw [List.take_range, min_eq_left h]⟩

/-- The table of a nonempty text under any tie-break order (R100, R118 to R120, R122): it has exactly the text's Symbols;
one Symbol gets `"0"`; two or more get the leaf paths of a strict tree. -/
theorem tableFor_spec {tie : Config.Tie} (ht : RefinesFrequency tie) {x : List Symbol} (hx : x ≠ []) :
    ∃ (ct : CodeTable) (t : HTree), tableFor tie x = some ct ∧ ct.wf ∧
      t.weighted ∧ t.syms.Perm (alphabet (countSymbols x)) ∧
      (∀ e, e ∈ ct ↔ (t.syms.length = 1 ∧ e.1 ∈ t.syms ∧ e.2 = [false]) ∨ (2 ≤ t.syms.length ∧ e ∈ t.entries [])) ∧
      (∀ a, ct.has a ↔ a ∈ x) ∧ ct.length = t.syms.length := by
  have hne : alphabet (countSymbols x) ≠ [] := fun h => hx ((alphabet_countSymbols_eq_nil x).1 h)
  obtain ⟨hf, hpq, hlen, t, hat, hw, hperm, hsum⟩ := buildTree_spec ht hne
  have hpos := List.length_pos_iff.2 hne
  have hnd : t.syms.Nodup := hperm.nodup_iff.2 (alphabet_nodup _)
  obtain ⟨ct, hct, hwf, hall⟩ := codes_of_standsAt hat (by rw [hperm.length_eq, hlen]; omega) hnd
  have hpos' := t.syms_length_pos
  have hmem : ∀ a, (∃ c, (a, c) ∈ ct) ↔ a ∈ t.syms := by
    intro a
    constructor
    · rintro ⟨c, hc⟩
      rcases (hall (a, c)).1 hc with ⟨-, h, -⟩ | ⟨-, h⟩
      · exact h
      · rw [← t.map_fst_entries []]; exact List.mem_map.2 ⟨_, h, rfl⟩
    · intro ha
      by_cases h1 : t.syms.length = 1
      · exact ⟨[false], (hall _).2 (.inl ⟨h1, ha, rfl⟩)⟩
      · rw [← t.map_fst_entries []] at ha
        obtain ⟨⟨b, c⟩, he, rfl⟩ := List.mem_map.1 ha
        exact ⟨c, (hall _).2 (.inr ⟨by omega, he⟩)⟩
  refine ⟨ct, t, by simp [tableFor, hpq, hct], hwf, hw, hperm, hall, fun a => ?_, ?_⟩
  · rw [CodeTable.has, hmem, hperm.mem_iff, mem_alphabet, count_countSymbols, List.count_pos_iff]
  · have hnd' : (ct.map Prod.fst).Nodup :=
      List.pairwise_map.2 (hwf.imp fun h e => by rw [e] at h; exact lt_irrefl _ h)
    rw [← List.length_map (f := Prod.fst)]
    refine List.Perm.length_eq ((List.perm_ext_iff_of_nodup hnd' hnd).2 fun a => ?_)
    rw [← hmem, List.mem_map]
    exact ⟨fun ⟨e, he, h⟩ => ⟨e.2, h ▸ he⟩, fun ⟨c, hc⟩ => ⟨_, hc, rfl⟩⟩

/-! ## The scan (R152) -/

theorem ReverseTable.symbol?_eq_some {ct : CodeTable} (hp : ct.prefixFree) (hw : ct.wf) {c : BitString} {a : Symbol} :
    ReverseTable.symbol? (invert ct) c = some a ↔ (a, c) ∈ ct := by
  induction ct with
  | nil => simp [ReverseTable.symbol?, invert]
  | cons d r ih =>
    obtain ⟨x, y⟩ := d
    obtain ⟨hd, hr⟩ := List.pairwise_cons.1 hw
    have hp' : CodeTable.prefixFree r :=
      fun u hu v hv => hp u (List.mem_cons_of_mem _ hu) v (List.mem_cons_of_mem _ hv)
    have := ih hp' hr
    simp only [ReverseTable.symbol?, invert, List.map_cons] at this ⊢
    by_cases e : c = y
    · subst e
      have hno : ∀ b, (b, c) ∉ r := fun b hb =>
        hp _ List.mem_cons_self _ (List.mem_cons_of_mem _ hb)
          (fun e => by have := hd _ hb; simp only at e; simp [e] at this) (List.prefix_refl _)
      simp [List.lookup, hno, eq_comm]
    · simp [List.lookup, beq_eq_false_iff_ne.2 e, this, e]

/-- Bits that complete no code join the candidate. -/
theorem scan_append_no_code {rct : ReverseTable} {bits rest buf : BitString} {out : List Symbol}
    (h : ∀ n, 0 < n → n ≤ bits.length → rct.symbol? (buf ++ bits.take n) = none) :
    scan rct (bits ++ rest) buf out = scan rct rest (buf ++ bits) out := by
  induction bits generalizing buf with
  | nil => simp
  | cons b r ih =>
    have h1 : rct.symbol? (buf ++ [b]) = none := by simpa using h 1 (by decide) (by simp)
    simp only [List.cons_append, scan, h1]
    rw [ih]
    · simp
    · intro n hn hle
      simpa using h (n + 1) (by omega) (by simpa using hle)

/-- A code at the front of the bits is taken as its Symbol (R152, R163). -/
theorem scan_code {ct : CodeTable} (hp : ct.prefixFree) (hw : ct.wf) {a : Symbol} {c : BitString} (h : (a, c) ∈ ct)
    (hc : c ≠ []) (rest : BitString) (out : List Symbol) :
    scan (invert ct) (c ++ rest) [] out = scan (invert ct) rest [] (out ++ [a]) := by
  obtain ⟨init, last, rfl⟩ := List.eq_nil_or_concat c |>.resolve_left hc
  rw [List.concat_eq_append, List.append_assoc, scan_append_no_code]
  · have : ReverseTable.symbol? (invert ct) ([] ++ init ++ [last]) = some a :=
      (ReverseTable.symbol?_eq_some hp hw).2 (by simpa using h)
    simp only [List.singleton_append, scan, this]
  · intro n hn hle
    by_contra hne
    obtain ⟨b, hb⟩ := Option.ne_none_iff_exists'.1 hne
    have hb' := (ReverseTable.symbol?_eq_some hp hw).1 hb
    rw [List.nil_append] at hb'
    have hpre : init.take n <+: init.concat last := by
      rw [List.concat_eq_append]; exact (List.take_prefix n init).trans (List.prefix_append _ _)
    by_cases e : b = a
    · subst e
      have h1 := (CodeTable.code?_eq_some hw).2 hb'
      have h2 := (CodeTable.code?_eq_some hw).2 h
      rw [h1, Option.some.injEq] at h2
      have := congrArg List.length h2
      simp at this; omega
    · exact hp _ hb' _ h e hpre

/-- A sequence of codes is taken as their Symbols, whatever bits follow (R163). -/
theorem scan_bitsOf {ct : CodeTable} (hp : ct.prefixFree) (hw : ct.wf) (hc : ∀ e ∈ ct, e.2 ≠ []) {x : List Symbol}
    (hx : ∀ a ∈ x, ct.has a) (rest : BitString) (out : List Symbol) :
    scan (invert ct) (ct.bitsOf x ++ rest) [] out = scan (invert ct) rest [] (out ++ x) := by
  induction x generalizing out with
  | nil => simp [CodeTable.bitsOf]
  | cons a r ih =>
    obtain ⟨c, hm⟩ := hx a List.mem_cons_self
    have : ct.bitsOf (a :: r) = c ++ ct.bitsOf r := by
      simp [CodeTable.bitsOf, (CodeTable.code?_eq_some hw).2 hm]
    rw [this, List.append_assoc, scan_code hp hw hm (hc _ hm), ih fun b hb => hx b (List.mem_cons_of_mem _ hb)]
    simp

/-- What a scan has done: the Symbols emitted, their codes, the candidate, together all the bits seen; and no nonempty
beginning of the candidate is a code (R152, R154). -/
theorem scan_result {ct : CodeTable} (hp : ct.prefixFree) (hw : ct.wf) (bits buf : BitString) (out : List Symbol)
    (hbuf : ∀ n, 0 < n → n ≤ buf.length → ReverseTable.symbol? (invert ct) (buf.take n) = none) :
    ∃ x, (scan (invert ct) bits buf out).2 = out ++ x ∧ (∀ a ∈ x, ct.has a) ∧
      buf ++ bits = ct.bitsOf x ++ (scan (invert ct) bits buf out).1 ∧
      ∀ n, 0 < n → n ≤ (scan (invert ct) bits buf out).1.length →
        ReverseTable.symbol? (invert ct) ((scan (invert ct) bits buf out).1.take n) = none := by
  induction bits generalizing buf out with
  | nil => exact ⟨[], by simp [scan], by simp, by simp [scan, CodeTable.bitsOf], by simpa [scan] using hbuf⟩
  | cons b r ih =>
    cases h : ReverseTable.symbol? (invert ct) (buf ++ [b]) with
    | none =>
      simp only [scan, h]
      obtain ⟨x, h1, h2, h3, h4⟩ := ih (buf ++ [b]) out (by
        intro n hn hle
        by_cases e : n ≤ buf.length
        · rw [List.take_append_of_le_length e]; exact hbuf n hn e
        · rw [List.take_of_length_le (by simp at hle ⊢; omega)]; exact h)
      exact ⟨x, h1, h2, by rw [← h3, List.append_assoc]; rfl, h4⟩
    | some a =>
      simp only [scan, h]
      have hm := (ReverseTable.symbol?_eq_some hp hw).1 h
      obtain ⟨x, h1, h2, h3, h4⟩ := ih [] (out ++ [a]) (by simp; omega)
      refine ⟨a :: x, by simp [h1], ?_, ?_, h4⟩
      · intro d hd
        rcases List.mem_cons.1 hd with rfl | hd
        · exact ⟨_, hm⟩
        · exact h2 d hd
      · have : ct.bitsOf (a :: x) = buf ++ [b] ++ ct.bitsOf x := by
          simp [CodeTable.bitsOf, (CodeTable.code?_eq_some hw).2 hm]
        rw [this, List.append_assoc, ← h3]; simp

end Sys2Proof.Machine
end

