-- ==== Sys2Proof/Laws/State.lean ====
section
/-!
SUPPORT. What each update of the state does to each field: one lemma a field, true by `rfl`.
-/

namespace Sys2Proof.Machine

variable (s : State)

/-! `clearFlags` (R27, R28) -/

@[simp] theorem State.clearFlags_ibuf : (s.clearFlags).ibuf = s.ibuf := rfl
@[simp] theorem State.clearFlags_ilen : (s.clearFlags).ilen = s.ilen := rfl
@[simp] theorem State.clearFlags_obuf : (s.clearFlags).obuf = s.obuf := rfl
@[simp] theorem State.clearFlags_olen : (s.clearFlags).olen = s.olen := rfl
@[simp] theorem State.clearFlags_done : (s.clearFlags).done = false := rfl
@[simp] theorem State.clearFlags_tableValid : (s.clearFlags).tableValid = s.tableValid := rfl
@[simp] theorem State.clearFlags_err : (s.clearFlags).err = .none := rfl
@[simp] theorem State.clearFlags_ct : (s.clearFlags).ct = s.ct := rfl
@[simp] theorem State.clearFlags_rct : (s.clearFlags).rct = s.rct := rfl
@[simp] theorem State.clearFlags_phase : (s.clearFlags).phase = s.phase := rfl
@[simp] theorem State.clearFlags_enc : (s.clearFlags).enc = s.enc := rfl
@[simp] theorem State.clearFlags_dec : (s.clearFlags).dec = s.dec := rfl
@[simp] theorem State.clearFlags_script : (s.clearFlags).script = s.script := rfl
@[simp] theorem State.clearFlags_seen : (s.clearFlags).seen = s.seen := rfl
@[simp] theorem State.clearFlags_draws : (s.clearFlags).draws = s.draws := rfl

/-! `setDone` (R27) -/

@[simp] theorem State.setDone_ibuf : (s.setDone).ibuf = s.ibuf := rfl
@[simp] theorem State.setDone_ilen : (s.setDone).ilen = s.ilen := rfl
@[simp] theorem State.setDone_obuf : (s.setDone).obuf = s.obuf := rfl
@[simp] theorem State.setDone_olen : (s.setDone).olen = s.olen := rfl
@[simp] theorem State.setDone_done : (s.setDone).done = true := rfl
@[simp] theorem State.setDone_tableValid : (s.setDone).tableValid = s.tableValid := rfl
@[simp] theorem State.setDone_err : (s.setDone).err = s.err := rfl
@[simp] theorem State.setDone_ct : (s.setDone).ct = s.ct := rfl
@[simp] theorem State.setDone_rct : (s.setDone).rct = s.rct := rfl
@[simp] theorem State.setDone_phase : (s.setDone).phase = s.phase := rfl
@[simp] theorem State.setDone_enc : (s.setDone).enc = s.enc := rfl
@[simp] theorem State.setDone_dec : (s.setDone).dec = s.dec := rfl
@[simp] theorem State.setDone_script : (s.setDone).script = s.script := rfl
@[simp] theorem State.setDone_seen : (s.setDone).seen = s.seen := rfl
@[simp] theorem State.setDone_draws : (s.setDone).draws = s.draws := rfl

/-! `setTableValid` (R29) -/

@[simp] theorem State.setTableValid_ibuf : (s.setTableValid).ibuf = s.ibuf := rfl
@[simp] theorem State.setTableValid_ilen : (s.setTableValid).ilen = s.ilen := rfl
@[simp] theorem State.setTableValid_obuf : (s.setTableValid).obuf = s.obuf := rfl
@[simp] theorem State.setTableValid_olen : (s.setTableValid).olen = s.olen := rfl
@[simp] theorem State.setTableValid_done : (s.setTableValid).done = s.done := rfl
@[simp] theorem State.setTableValid_tableValid : (s.setTableValid).tableValid = true := rfl
@[simp] theorem State.setTableValid_err : (s.setTableValid).err = s.err := rfl
@[simp] theorem State.setTableValid_ct : (s.setTableValid).ct = s.ct := rfl
@[simp] theorem State.setTableValid_rct : (s.setTableValid).rct = s.rct := rfl
@[simp] theorem State.setTableValid_phase : (s.setTableValid).phase = s.phase := rfl
@[simp] theorem State.setTableValid_enc : (s.setTableValid).enc = s.enc := rfl
@[simp] theorem State.setTableValid_dec : (s.setTableValid).dec = s.dec := rfl
@[simp] theorem State.setTableValid_script : (s.setTableValid).script = s.script := rfl
@[simp] theorem State.setTableValid_seen : (s.setTableValid).seen = s.seen := rfl
@[simp] theorem State.setTableValid_draws : (s.setTableValid).draws = s.draws := rfl

/-! `setErr` (R176) -/

@[simp] theorem State.setErr_ibuf (k : ErrKind) : (s.setErr k).ibuf = s.ibuf := rfl
@[simp] theorem State.setErr_ilen (k : ErrKind) : (s.setErr k).ilen = s.ilen := rfl
@[simp] theorem State.setErr_obuf (k : ErrKind) : (s.setErr k).obuf = s.obuf := rfl
@[simp] theorem State.setErr_olen (k : ErrKind) : (s.setErr k).olen = s.olen := rfl
@[simp] theorem State.setErr_done (k : ErrKind) : (s.setErr k).done = s.done := rfl
@[simp] theorem State.setErr_tableValid (k : ErrKind) : (s.setErr k).tableValid = s.tableValid := rfl
@[simp] theorem State.setErr_err (k : ErrKind) : (s.setErr k).err = k := rfl
@[simp] theorem State.setErr_ct (k : ErrKind) : (s.setErr k).ct = s.ct := rfl
@[simp] theorem State.setErr_rct (k : ErrKind) : (s.setErr k).rct = s.rct := rfl
@[simp] theorem State.setErr_phase (k : ErrKind) : (s.setErr k).phase = s.phase := rfl
@[simp] theorem State.setErr_enc (k : ErrKind) : (s.setErr k).enc = s.enc := rfl
@[simp] theorem State.setErr_dec (k : ErrKind) : (s.setErr k).dec = s.dec := rfl
@[simp] theorem State.setErr_script (k : ErrKind) : (s.setErr k).script = s.script := rfl
@[simp] theorem State.setErr_seen (k : ErrKind) : (s.setErr k).seen = s.seen := rfl
@[simp] theorem State.setErr_draws (k : ErrKind) : (s.setErr k).draws = s.draws := rfl

/-! `start` (R101, R141) -/

@[simp] theorem State.start_ibuf (p : Phase) : (s.start p).ibuf = s.ibuf := rfl
@[simp] theorem State.start_ilen (p : Phase) : (s.start p).ilen = s.ilen := rfl
@[simp] theorem State.start_obuf (p : Phase) : (s.start p).obuf = s.obuf := rfl
@[simp] theorem State.start_olen (p : Phase) : (s.start p).olen = s.olen := rfl
@[simp] theorem State.start_done (p : Phase) : (s.start p).done = false := rfl
@[simp] theorem State.start_tableValid (p : Phase) : (s.start p).tableValid = s.tableValid := rfl
@[simp] theorem State.start_err (p : Phase) : (s.start p).err = .none := rfl
@[simp] theorem State.start_ct (p : Phase) : (s.start p).ct = s.ct := rfl
@[simp] theorem State.start_rct (p : Phase) : (s.start p).rct = s.rct := rfl
@[simp] theorem State.start_phase (p : Phase) : (s.start p).phase = p := rfl
@[simp] theorem State.start_enc (p : Phase) : (s.start p).enc = s.enc := rfl
@[simp] theorem State.start_dec (p : Phase) : (s.start p).dec = s.dec := rfl
@[simp] theorem State.start_script (p : Phase) : (s.start p).script = s.script := rfl
@[simp] theorem State.start_seen (p : Phase) : (s.start p).seen = s.seen := rfl
@[simp] theorem State.start_draws (p : Phase) : (s.start p).draws = s.draws := rfl

/-! `finish` (R35, R176) -/

@[simp] theorem State.finish_ibuf : (s.finish).ibuf = s.ibuf := rfl
@[simp] theorem State.finish_ilen : (s.finish).ilen = s.ilen := rfl
@[simp] theorem State.finish_obuf : (s.finish).obuf = s.obuf := rfl
@[simp] theorem State.finish_olen : (s.finish).olen = s.olen := rfl
@[simp] theorem State.finish_done : (s.finish).done = s.done := rfl
@[simp] theorem State.finish_tableValid : (s.finish).tableValid = s.tableValid := rfl
@[simp] theorem State.finish_err : (s.finish).err = s.err := rfl
@[simp] theorem State.finish_ct : (s.finish).ct = s.ct := rfl
@[simp] theorem State.finish_rct : (s.finish).rct = s.rct := rfl
@[simp] theorem State.finish_phase : (s.finish).phase = .idle := rfl
@[simp] theorem State.finish_enc : (s.finish).enc = Config.freeEncoderWork s.draws := rfl
@[simp] theorem State.finish_dec : (s.finish).dec = Config.freeDecoderWork s.draws := rfl
@[simp] theorem State.finish_script : (s.finish).script = s.script := rfl
@[simp] theorem State.finish_seen : (s.finish).seen = s.seen := rfl
@[simp] theorem State.finish_draws : (s.finish).draws = s.draws + 1 := rfl

/-! `raise` (R176): all it does -/

@[simp] theorem State.raise_ibuf (k : ErrKind) : (s.raise k).ibuf = s.ibuf := rfl
@[simp] theorem State.raise_ilen (k : ErrKind) : (s.raise k).ilen = s.ilen := rfl
@[simp] theorem State.raise_obuf (k : ErrKind) : (s.raise k).obuf = [] := rfl
@[simp] theorem State.raise_olen (k : ErrKind) : (s.raise k).olen = Config.freeOlen s.draws := rfl
@[simp] theorem State.raise_done (k : ErrKind) : (s.raise k).done = s.done := rfl
@[simp] theorem State.raise_tableValid (k : ErrKind) : (s.raise k).tableValid = s.tableValid := rfl
@[simp] theorem State.raise_err (k : ErrKind) : (s.raise k).err = k := rfl
@[simp] theorem State.raise_ct (k : ErrKind) : (s.raise k).ct = s.ct := rfl
@[simp] theorem State.raise_rct (k : ErrKind) : (s.raise k).rct = s.rct := rfl
@[simp] theorem State.raise_phase (k : ErrKind) : (s.raise k).phase = .idle := rfl
@[simp] theorem State.raise_enc (k : ErrKind) : (s.raise k).enc = Config.freeEncoderWork s.draws := rfl
@[simp] theorem State.raise_dec (k : ErrKind) : (s.raise k).dec = Config.freeDecoderWork s.draws := rfl
@[simp] theorem State.raise_script (k : ErrKind) : (s.raise k).script = s.script := rfl
@[simp] theorem State.raise_seen (k : ErrKind) : (s.raise k).seen = s.seen := rfl
@[simp] theorem State.raise_draws (k : ErrKind) : (s.raise k).draws = s.draws + 1 := rfl

/-! `output` (R24) -/

@[simp] theorem State.output_ibuf (bs : List Byte) : (s.output bs).ibuf = s.ibuf := rfl
@[simp] theorem State.output_ilen (bs : List Byte) : (s.output bs).ilen = s.ilen := rfl
@[simp] theorem State.output_obuf (bs : List Byte) : (s.output bs).obuf = Memory.ofBytes bs := rfl
@[simp] theorem State.output_olen (bs : List Byte) : (s.output bs).olen = bs.length := rfl
@[simp] theorem State.output_done (bs : List Byte) : (s.output bs).done = s.done := rfl
@[simp] theorem State.output_tableValid (bs : List Byte) : (s.output bs).tableValid = s.tableValid := rfl
@[simp] theorem State.output_err (bs : List Byte) : (s.output bs).err = s.err := rfl
@[simp] theorem State.output_ct (bs : List Byte) : (s.output bs).ct = s.ct := rfl
@[simp] theorem State.output_rct (bs : List Byte) : (s.output bs).rct = s.rct := rfl
@[simp] theorem State.output_phase (bs : List Byte) : (s.output bs).phase = s.phase := rfl
@[simp] theorem State.output_enc (bs : List Byte) : (s.output bs).enc = s.enc := rfl
@[simp] theorem State.output_dec (bs : List Byte) : (s.output bs).dec = s.dec := rfl
@[simp] theorem State.output_script (bs : List Byte) : (s.output bs).script = s.script := rfl
@[simp] theorem State.output_seen (bs : List Byte) : (s.output bs).seen = s.seen := rfl
@[simp] theorem State.output_draws (bs : List Byte) : (s.output bs).draws = s.draws := rfl

/-! `applyReset` (R43, R200) -/

@[simp] theorem State.applyReset_ibuf : (s.applyReset).ibuf = State.reset.ibuf := rfl
@[simp] theorem State.applyReset_ilen : (s.applyReset).ilen = State.reset.ilen := rfl
@[simp] theorem State.applyReset_obuf : (s.applyReset).obuf = State.reset.obuf := rfl
@[simp] theorem State.applyReset_olen : (s.applyReset).olen = State.reset.olen := rfl
@[simp] theorem State.applyReset_done : (s.applyReset).done = State.reset.done := rfl
@[simp] theorem State.applyReset_tableValid : (s.applyReset).tableValid = State.reset.tableValid := rfl
@[simp] theorem State.applyReset_err : (s.applyReset).err = State.reset.err := rfl
@[simp] theorem State.applyReset_ct : (s.applyReset).ct = State.reset.ct := rfl
@[simp] theorem State.applyReset_rct : (s.applyReset).rct = State.reset.rct := rfl
@[simp] theorem State.applyReset_phase : (s.applyReset).phase = State.reset.phase := rfl
@[simp] theorem State.applyReset_enc : (s.applyReset).enc = State.reset.enc := rfl
@[simp] theorem State.applyReset_dec : (s.applyReset).dec = State.reset.dec := rfl
@[simp] theorem State.applyReset_script : (s.applyReset).script = s.script := rfl
@[simp] theorem State.applyReset_seen : (s.applyReset).seen = s.seen := rfl
@[simp] theorem State.applyReset_draws : (s.applyReset).draws = s.draws + 1 := rfl

/-! `observe` (R42) -/

@[simp] theorem State.observe_ibuf (o : Observation) : (s.observe o).ibuf = s.ibuf := rfl
@[simp] theorem State.observe_ilen (o : Observation) : (s.observe o).ilen = s.ilen := rfl
@[simp] theorem State.observe_obuf (o : Observation) : (s.observe o).obuf = s.obuf := rfl
@[simp] theorem State.observe_olen (o : Observation) : (s.observe o).olen = s.olen := rfl
@[simp] theorem State.observe_done (o : Observation) : (s.observe o).done = s.done := rfl
@[simp] theorem State.observe_tableValid (o : Observation) : (s.observe o).tableValid = s.tableValid := rfl
@[simp] theorem State.observe_err (o : Observation) : (s.observe o).err = s.err := rfl
@[simp] theorem State.observe_ct (o : Observation) : (s.observe o).ct = s.ct := rfl
@[simp] theorem State.observe_rct (o : Observation) : (s.observe o).rct = s.rct := rfl
@[simp] theorem State.observe_phase (o : Observation) : (s.observe o).phase = s.phase := rfl
@[simp] theorem State.observe_enc (o : Observation) : (s.observe o).enc = s.enc := rfl
@[simp] theorem State.observe_dec (o : Observation) : (s.observe o).dec = s.dec := rfl
@[simp] theorem State.observe_script (o : Observation) : (s.observe o).script = s.script := rfl
@[simp] theorem State.observe_seen (o : Observation) : (s.observe o).seen = s.seen ++ [o] := rfl
@[simp] theorem State.observe_draws (o : Observation) : (s.observe o).draws = s.draws := rfl

/-! `observeFree` (R42) -/

@[simp] theorem State.observeFree_ibuf (o : Observation) : (s.observeFree o).ibuf = s.ibuf := rfl
@[simp] theorem State.observeFree_ilen (o : Observation) : (s.observeFree o).ilen = s.ilen := rfl
@[simp] theorem State.observeFree_obuf (o : Observation) : (s.observeFree o).obuf = s.obuf := rfl
@[simp] theorem State.observeFree_olen (o : Observation) : (s.observeFree o).olen = s.olen := rfl
@[simp] theorem State.observeFree_done (o : Observation) : (s.observeFree o).done = s.done := rfl
@[simp] theorem State.observeFree_tableValid (o : Observation) : (s.observeFree o).tableValid = s.tableValid := rfl
@[simp] theorem State.observeFree_err (o : Observation) : (s.observeFree o).err = s.err := rfl
@[simp] theorem State.observeFree_ct (o : Observation) : (s.observeFree o).ct = s.ct := rfl
@[simp] theorem State.observeFree_rct (o : Observation) : (s.observeFree o).rct = s.rct := rfl
@[simp] theorem State.observeFree_phase (o : Observation) : (s.observeFree o).phase = s.phase := rfl
@[simp] theorem State.observeFree_enc (o : Observation) : (s.observeFree o).enc = s.enc := rfl
@[simp] theorem State.observeFree_dec (o : Observation) : (s.observeFree o).dec = s.dec := rfl
@[simp] theorem State.observeFree_script (o : Observation) : (s.observeFree o).script = s.script := rfl
@[simp] theorem State.observeFree_seen (o : Observation) : (s.observeFree o).seen = s.seen ++ [o] := rfl
@[simp] theorem State.observeFree_draws (o : Observation) : (s.observeFree o).draws = s.draws + 1 := rfl

/-! `load` (R90) -/

@[simp] theorem State.load_ibuf (bs : List Byte) : (s.load bs).ibuf = s.ibuf.writeBytes 0 bs := rfl
@[simp] theorem State.load_ilen (bs : List Byte) : (s.load bs).ilen = bs.length := rfl
@[simp] theorem State.load_obuf (bs : List Byte) : (s.load bs).obuf = s.obuf := rfl
@[simp] theorem State.load_olen (bs : List Byte) : (s.load bs).olen = s.olen := rfl
@[simp] theorem State.load_done (bs : List Byte) : (s.load bs).done = s.done := rfl
@[simp] theorem State.load_tableValid (bs : List Byte) : (s.load bs).tableValid = s.tableValid := rfl
@[simp] theorem State.load_err (bs : List Byte) : (s.load bs).err = s.err := rfl
@[simp] theorem State.load_ct (bs : List Byte) : (s.load bs).ct = s.ct := rfl
@[simp] theorem State.load_rct (bs : List Byte) : (s.load bs).rct = s.rct := rfl
@[simp] theorem State.load_phase (bs : List Byte) : (s.load bs).phase = s.phase := rfl
@[simp] theorem State.load_enc (bs : List Byte) : (s.load bs).enc = s.enc := rfl
@[simp] theorem State.load_dec (bs : List Byte) : (s.load bs).dec = s.dec := rfl
@[simp] theorem State.load_script (bs : List Byte) : (s.load bs).script = s.script := rfl
@[simp] theorem State.load_seen (bs : List Byte) : (s.load bs).seen = s.seen := rfl
@[simp] theorem State.load_draws (bs : List Byte) : (s.load bs).draws = s.draws := rfl

/-! `E_TRIM` (R103) -/

@[simp] theorem eTrim_ibuf : (eTrim s).ibuf = s.ibuf := rfl
@[simp] theorem eTrim_ilen : (eTrim s).ilen = s.ilen := rfl
@[simp] theorem eTrim_obuf : (eTrim s).obuf = s.obuf := rfl
@[simp] theorem eTrim_olen : (eTrim s).olen = s.olen := rfl
@[simp] theorem eTrim_done : (eTrim s).done = s.done := rfl
@[simp] theorem eTrim_tableValid : (eTrim s).tableValid = s.tableValid := rfl
@[simp] theorem eTrim_err : (eTrim s).err = s.err := rfl
@[simp] theorem eTrim_ct : (eTrim s).ct = s.ct := rfl
@[simp] theorem eTrim_rct : (eTrim s).rct = s.rct := rfl
@[simp] theorem eTrim_phase : (eTrim s).phase = .eFreq := rfl
@[simp] theorem eTrim_enc : (eTrim s).enc = { s.enc with tlen := trimLen s.ibufByte s.ilen } := rfl
@[simp] theorem eTrim_dec : (eTrim s).dec = s.dec := rfl
@[simp] theorem eTrim_script : (eTrim s).script = s.script := rfl
@[simp] theorem eTrim_seen : (eTrim s).seen = s.seen := rfl
@[simp] theorem eTrim_draws : (eTrim s).draws = s.draws := rfl

/-! `E_FREQ` (R106) -/

@[simp] theorem eFreq_ibuf : (eFreq s).ibuf = s.ibuf := rfl
@[simp] theorem eFreq_ilen : (eFreq s).ilen = s.ilen := rfl
@[simp] theorem eFreq_obuf : (eFreq s).obuf = s.obuf := rfl
@[simp] theorem eFreq_olen : (eFreq s).olen = s.olen := rfl
@[simp] theorem eFreq_done : (eFreq s).done = s.done := rfl
@[simp] theorem eFreq_tableValid : (eFreq s).tableValid = s.tableValid := rfl
@[simp] theorem eFreq_err : (eFreq s).err = s.err := rfl
@[simp] theorem eFreq_ct : (eFreq s).ct = s.ct := rfl
@[simp] theorem eFreq_rct : (eFreq s).rct = s.rct := rfl
@[simp] theorem eFreq_phase : (eFreq s).phase = .eBuild := rfl
@[simp] theorem eFreq_enc : (eFreq s).enc =
    { s.enc with freq := countSymbols s.trimmed, n := (alphabet (countSymbols s.trimmed)).length } := rfl
@[simp] theorem eFreq_dec : (eFreq s).dec = s.dec := rfl
@[simp] theorem eFreq_script : (eFreq s).script = s.script := rfl
@[simp] theorem eFreq_seen : (eFreq s).seen = s.seen := rfl
@[simp] theorem eFreq_draws : (eFreq s).draws = s.draws := rfl

/-! the leaves of `E_BUILD` (R110 to R112) -/

@[simp] theorem createLeaves_ibuf : (createLeaves s).ibuf = s.ibuf := rfl
@[simp] theorem createLeaves_ilen : (createLeaves s).ilen = s.ilen := rfl
@[simp] theorem createLeaves_obuf : (createLeaves s).obuf = s.obuf := rfl
@[simp] theorem createLeaves_olen : (createLeaves s).olen = s.olen := rfl
@[simp] theorem createLeaves_done : (createLeaves s).done = s.done := rfl
@[simp] theorem createLeaves_tableValid : (createLeaves s).tableValid = s.tableValid := rfl
@[simp] theorem createLeaves_err : (createLeaves s).err = s.err := rfl
@[simp] theorem createLeaves_ct : (createLeaves s).ct = s.ct := rfl
@[simp] theorem createLeaves_rct : (createLeaves s).rct = s.rct := rfl
@[simp] theorem createLeaves_phase : (createLeaves s).phase = s.phase := rfl
@[simp] theorem createLeaves_enc : (createLeaves s).enc =
    { s.enc with node := (leafForest s.enc.freq).node, pq := (leafForest s.enc.freq).pq,
                 next := (leafForest s.enc.freq).node.length } := rfl
@[simp] theorem createLeaves_dec : (createLeaves s).dec = s.dec := rfl
@[simp] theorem createLeaves_script : (createLeaves s).script = s.script := rfl
@[simp] theorem createLeaves_seen : (createLeaves s).seen = s.seen := rfl
@[simp] theorem createLeaves_draws : (createLeaves s).draws = s.draws := rfl

/-! the merges of `E_BUILD` (R114) -/

@[simp] theorem mergeNodes_ibuf : (mergeNodes s).ibuf = s.ibuf := rfl
@[simp] theorem mergeNodes_ilen : (mergeNodes s).ilen = s.ilen := rfl
@[simp] theorem mergeNodes_obuf : (mergeNodes s).obuf = s.obuf := rfl
@[simp] theorem mergeNodes_olen : (mergeNodes s).olen = s.olen := rfl
@[simp] theorem mergeNodes_done : (mergeNodes s).done = s.done := rfl
@[simp] theorem mergeNodes_tableValid : (mergeNodes s).tableValid = s.tableValid := rfl
@[simp] theorem mergeNodes_err : (mergeNodes s).err = s.err := rfl
@[simp] theorem mergeNodes_ct : (mergeNodes s).ct = s.ct := rfl
@[simp] theorem mergeNodes_rct : (mergeNodes s).rct = s.rct := rfl
@[simp] theorem mergeNodes_phase : (mergeNodes s).phase = s.phase := rfl
@[simp] theorem mergeNodes_enc : (mergeNodes s).enc =
    { s.enc with node := (mergeLoop Config.tie s.enc.pq.length ⟨s.enc.node, s.enc.pq⟩).node,
                 pq := (mergeLoop Config.tie s.enc.pq.length ⟨s.enc.node, s.enc.pq⟩).pq,
                 next := (mergeLoop Config.tie s.enc.pq.length ⟨s.enc.node, s.enc.pq⟩).node.length } := rfl
@[simp] theorem mergeNodes_dec : (mergeNodes s).dec = s.dec := rfl
@[simp] theorem mergeNodes_script : (mergeNodes s).script = s.script := rfl
@[simp] theorem mergeNodes_seen : (mergeNodes s).seen = s.seen := rfl
@[simp] theorem mergeNodes_draws : (mergeNodes s).draws = s.draws := rfl

/-! the root of `E_BUILD` (R115) -/

@[simp] theorem takeRoot_ibuf : (takeRoot s).ibuf = s.ibuf := rfl
@[simp] theorem takeRoot_ilen : (takeRoot s).ilen = s.ilen := rfl
@[simp] theorem takeRoot_obuf : (takeRoot s).obuf = s.obuf := rfl
@[simp] theorem takeRoot_olen : (takeRoot s).olen = s.olen := rfl
@[simp] theorem takeRoot_done : (takeRoot s).done = s.done := rfl
@[simp] theorem takeRoot_tableValid : (takeRoot s).tableValid = s.tableValid := rfl
@[simp] theorem takeRoot_err : (takeRoot s).err = s.err := rfl
@[simp] theorem takeRoot_ct : (takeRoot s).ct = s.ct := rfl
@[simp] theorem takeRoot_rct : (takeRoot s).rct = s.rct := rfl
@[simp] theorem takeRoot_phase : (takeRoot s).phase = s.phase := rfl
@[simp] theorem takeRoot_enc : (takeRoot s).enc = { s.enc with root := s.enc.pq.head?.getD (Config.freeRoot s.draws) } := rfl
@[simp] theorem takeRoot_dec : (takeRoot s).dec = s.dec := rfl
@[simp] theorem takeRoot_script : (takeRoot s).script = s.script := rfl
@[simp] theorem takeRoot_seen : (takeRoot s).seen = s.seen := rfl
@[simp] theorem takeRoot_draws : (takeRoot s).draws = s.draws := rfl

/-! `E_CODE` (R118) -/

@[simp] theorem eCode_ibuf : (eCode s).ibuf = s.ibuf := rfl
@[simp] theorem eCode_ilen : (eCode s).ilen = s.ilen := rfl
@[simp] theorem eCode_obuf : (eCode s).obuf = s.obuf := rfl
@[simp] theorem eCode_olen : (eCode s).olen = s.olen := rfl
@[simp] theorem eCode_done : (eCode s).done = s.done := rfl
@[simp] theorem eCode_tableValid : (eCode s).tableValid = s.tableValid := rfl
@[simp] theorem eCode_err : (eCode s).err = s.err := rfl
@[simp] theorem eCode_ct : (eCode s).ct = s.derivedTable := rfl
@[simp] theorem eCode_rct : (eCode s).rct = invert s.derivedTable := rfl
@[simp] theorem eCode_phase : (eCode s).phase = .ePack := rfl
@[simp] theorem eCode_enc : (eCode s).enc = s.enc := rfl
@[simp] theorem eCode_dec : (eCode s).dec = s.dec := rfl
@[simp] theorem eCode_script : (eCode s).script = s.script := rfl
@[simp] theorem eCode_seen : (eCode s).seen = s.seen := rfl
@[simp] theorem eCode_draws : (eCode s).draws = s.draws := rfl

/-! step (a) of `E_PACK` (R125) -/

@[simp] theorem packBits_ibuf : (packBits s).ibuf = s.ibuf := rfl
@[simp] theorem packBits_ilen : (packBits s).ilen = s.ilen := rfl
@[simp] theorem packBits_obuf : (packBits s).obuf = s.obuf := rfl
@[simp] theorem packBits_olen : (packBits s).olen = s.olen := rfl
@[simp] theorem packBits_done : (packBits s).done = s.done := rfl
@[simp] theorem packBits_tableValid : (packBits s).tableValid = s.tableValid := rfl
@[simp] theorem packBits_err : (packBits s).err = s.err := rfl
@[simp] theorem packBits_ct : (packBits s).ct = s.ct := rfl
@[simp] theorem packBits_rct : (packBits s).rct = s.rct := rfl
@[simp] theorem packBits_phase : (packBits s).phase = s.phase := rfl
@[simp] theorem packBits_enc : (packBits s).enc =
    { s.enc with bits := s.trimmed.flatMap s.codeOf, l := (s.trimmed.flatMap s.codeOf).length } := rfl
@[simp] theorem packBits_dec : (packBits s).dec = s.dec := rfl
@[simp] theorem packBits_script : (packBits s).script = s.script := rfl
@[simp] theorem packBits_seen : (packBits s).seen = s.seen := rfl
@[simp] theorem packBits_draws : (packBits s).draws = s.draws := rfl

/-! step (b) of `E_PACK` (R126) -/

@[simp] theorem packPad_ibuf : (packPad s).ibuf = s.ibuf := rfl
@[simp] theorem packPad_ilen : (packPad s).ilen = s.ilen := rfl
@[simp] theorem packPad_obuf : (packPad s).obuf = s.obuf := rfl
@[simp] theorem packPad_olen : (packPad s).olen = s.olen := rfl
@[simp] theorem packPad_done : (packPad s).done = s.done := rfl
@[simp] theorem packPad_tableValid : (packPad s).tableValid = s.tableValid := rfl
@[simp] theorem packPad_err : (packPad s).err = s.err := rfl
@[simp] theorem packPad_ct : (packPad s).ct = s.ct := rfl
@[simp] theorem packPad_rct : (packPad s).rct = s.rct := rfl
@[simp] theorem packPad_phase : (packPad s).phase = s.phase := rfl
@[simp] theorem packPad_enc : (packPad s).enc = { s.enc with pad := padAmount s.enc.l } := rfl
@[simp] theorem packPad_dec : (packPad s).dec = s.dec := rfl
@[simp] theorem packPad_script : (packPad s).script = s.script := rfl
@[simp] theorem packPad_seen : (packPad s).seen = s.seen := rfl
@[simp] theorem packPad_draws : (packPad s).draws = s.draws := rfl

/-! steps (c), (d) of `E_PACK` (R127) -/

@[simp] theorem packStream_ibuf : (packStream s).ibuf = s.ibuf := rfl
@[simp] theorem packStream_ilen : (packStream s).ilen = s.ilen := rfl
@[simp] theorem packStream_obuf : (packStream s).obuf = s.obuf := rfl
@[simp] theorem packStream_olen : (packStream s).olen = s.olen := rfl
@[simp] theorem packStream_done : (packStream s).done = s.done := rfl
@[simp] theorem packStream_tableValid : (packStream s).tableValid = s.tableValid := rfl
@[simp] theorem packStream_err : (packStream s).err = s.err := rfl
@[simp] theorem packStream_ct : (packStream s).ct = s.ct := rfl
@[simp] theorem packStream_rct : (packStream s).rct = s.rct := rfl
@[simp] theorem packStream_phase : (packStream s).phase = s.phase := rfl
@[simp] theorem packStream_enc : (packStream s).enc = { s.enc with stream := streamOf s.enc.pad s.enc.bits } := rfl
@[simp] theorem packStream_dec : (packStream s).dec = s.dec := rfl
@[simp] theorem packStream_script : (packStream s).script = s.script := rfl
@[simp] theorem packStream_seen : (packStream s).seen = s.seen := rfl
@[simp] theorem packStream_draws : (packStream s).draws = s.draws := rfl

/-! step (e) of `E_PACK` (R127) -/

@[simp] theorem packBytes_ibuf : (packBytes s).ibuf = s.ibuf := rfl
@[simp] theorem packBytes_ilen : (packBytes s).ilen = s.ilen := rfl
@[simp] theorem packBytes_obuf : (packBytes s).obuf = Memory.ofBytes (toBytes s.enc.stream) := rfl
@[simp] theorem packBytes_olen : (packBytes s).olen = (toBytes s.enc.stream).length := rfl
@[simp] theorem packBytes_done : (packBytes s).done = s.done := rfl
@[simp] theorem packBytes_tableValid : (packBytes s).tableValid = s.tableValid := rfl
@[simp] theorem packBytes_err : (packBytes s).err = s.err := rfl
@[simp] theorem packBytes_ct : (packBytes s).ct = s.ct := rfl
@[simp] theorem packBytes_rct : (packBytes s).rct = s.rct := rfl
@[simp] theorem packBytes_phase : (packBytes s).phase = s.phase := rfl
@[simp] theorem packBytes_enc : (packBytes s).enc = s.enc := rfl
@[simp] theorem packBytes_dec : (packBytes s).dec = s.dec := rfl
@[simp] theorem packBytes_script : (packBytes s).script = s.script := rfl
@[simp] theorem packBytes_seen : (packBytes s).seen = s.seen := rfl
@[simp] theorem packBytes_draws : (packBytes s).draws = s.draws := rfl

/-! `commitCompress` (R129) -/

@[simp] theorem commitCompress_ibuf : (commitCompress s).ibuf = s.ibuf := rfl
@[simp] theorem commitCompress_ilen : (commitCompress s).ilen = s.ilen := rfl
@[simp] theorem commitCompress_obuf : (commitCompress s).obuf = s.obuf := rfl
@[simp] theorem commitCompress_olen : (commitCompress s).olen = s.olen := rfl
@[simp] theorem commitCompress_done : (commitCompress s).done = true := rfl
@[simp] theorem commitCompress_tableValid : (commitCompress s).tableValid = true := rfl
@[simp] theorem commitCompress_err : (commitCompress s).err = s.err := rfl
@[simp] theorem commitCompress_ct : (commitCompress s).ct = s.ct := rfl
@[simp] theorem commitCompress_rct : (commitCompress s).rct = s.rct := rfl
@[simp] theorem commitCompress_phase : (commitCompress s).phase = .idle := rfl
@[simp] theorem commitCompress_enc : (commitCompress s).enc = Config.freeEncoderWork s.draws := rfl
@[simp] theorem commitCompress_dec : (commitCompress s).dec = Config.freeDecoderWork s.draws := rfl
@[simp] theorem commitCompress_script : (commitCompress s).script = s.script := rfl
@[simp] theorem commitCompress_seen : (commitCompress s).seen = s.seen := rfl
@[simp] theorem commitCompress_draws : (commitCompress s).draws = s.draws + 1 := rfl

/-! `D_EXPAND` (R144) -/

@[simp] theorem dExpand_ibuf : (dExpand s).ibuf = s.ibuf := rfl
@[simp] theorem dExpand_ilen : (dExpand s).ilen = s.ilen := rfl
@[simp] theorem dExpand_obuf : (dExpand s).obuf = s.obuf := rfl
@[simp] theorem dExpand_olen : (dExpand s).olen = s.olen := rfl
@[simp] theorem dExpand_done : (dExpand s).done = s.done := rfl
@[simp] theorem dExpand_tableValid : (dExpand s).tableValid = s.tableValid := rfl
@[simp] theorem dExpand_err : (dExpand s).err = s.err := rfl
@[simp] theorem dExpand_ct : (dExpand s).ct = s.ct := rfl
@[simp] theorem dExpand_rct : (dExpand s).rct = s.rct := rfl
@[simp] theorem dExpand_phase : (dExpand s).phase = .dHdr := rfl
@[simp] theorem dExpand_enc : (dExpand s).enc = s.enc := rfl
@[simp] theorem dExpand_dec : (dExpand s).dec = { s.dec with dbits := s.input.flatMap bits8 } := rfl
@[simp] theorem dExpand_script : (dExpand s).script = s.script := rfl
@[simp] theorem dExpand_seen : (dExpand s).seen = s.seen := rfl
@[simp] theorem dExpand_draws : (dExpand s).draws = s.draws := rfl

/-! `REST` (R150) -/

@[simp] theorem dropHeader_ibuf : (dropHeader s).ibuf = s.ibuf := rfl
@[simp] theorem dropHeader_ilen : (dropHeader s).ilen = s.ilen := rfl
@[simp] theorem dropHeader_obuf : (dropHeader s).obuf = s.obuf := rfl
@[simp] theorem dropHeader_olen : (dropHeader s).olen = s.olen := rfl
@[simp] theorem dropHeader_done : (dropHeader s).done = s.done := rfl
@[simp] theorem dropHeader_tableValid : (dropHeader s).tableValid = s.tableValid := rfl
@[simp] theorem dropHeader_err : (dropHeader s).err = s.err := rfl
@[simp] theorem dropHeader_ct : (dropHeader s).ct = s.ct := rfl
@[simp] theorem dropHeader_rct : (dropHeader s).rct = s.rct := rfl
@[simp] theorem dropHeader_phase : (dropHeader s).phase = s.phase := rfl
@[simp] theorem dropHeader_enc : (dropHeader s).enc = s.enc := rfl
@[simp] theorem dropHeader_dec : (dropHeader s).dec = { s.dec with rest := slice s.dec.dbits 8 s.dec.dbits.length } := rfl
@[simp] theorem dropHeader_script : (dropHeader s).script = s.script := rfl
@[simp] theorem dropHeader_seen : (dropHeader s).seen = s.seen := rfl
@[simp] theorem dropHeader_draws : (dropHeader s).draws = s.draws := rfl

/-! `BODY` (R150) -/

@[simp] theorem dropPadding_ibuf : (dropPadding s).ibuf = s.ibuf := rfl
@[simp] theorem dropPadding_ilen : (dropPadding s).ilen = s.ilen := rfl
@[simp] theorem dropPadding_obuf : (dropPadding s).obuf = s.obuf := rfl
@[simp] theorem dropPadding_olen : (dropPadding s).olen = s.olen := rfl
@[simp] theorem dropPadding_done : (dropPadding s).done = s.done := rfl
@[simp] theorem dropPadding_tableValid : (dropPadding s).tableValid = s.tableValid := rfl
@[simp] theorem dropPadding_err : (dropPadding s).err = s.err := rfl
@[simp] theorem dropPadding_ct : (dropPadding s).ct = s.ct := rfl
@[simp] theorem dropPadding_rct : (dropPadding s).rct = s.rct := rfl
@[simp] theorem dropPadding_phase : (dropPadding s).phase = .dScan := rfl
@[simp] theorem dropPadding_enc : (dropPadding s).enc = s.enc := rfl
@[simp] theorem dropPadding_dec : (dropPadding s).dec =
    { s.dec with body := slice s.dec.rest 0 (s.dec.rest.length - s.dec.pad) } := rfl
@[simp] theorem dropPadding_script : (dropPadding s).script = s.script := rfl
@[simp] theorem dropPadding_seen : (dropPadding s).seen = s.seen := rfl
@[simp] theorem dropPadding_draws : (dropPadding s).draws = s.draws := rfl

/-! the loop of `D_SCAN` (R152) -/

@[simp] theorem scanBody_ibuf : (scanBody s).ibuf = s.ibuf := rfl
@[simp] theorem scanBody_ilen : (scanBody s).ilen = s.ilen := rfl
@[simp] theorem scanBody_obuf : (scanBody s).obuf = s.obuf := rfl
@[simp] theorem scanBody_olen : (scanBody s).olen = s.olen := rfl
@[simp] theorem scanBody_done : (scanBody s).done = s.done := rfl
@[simp] theorem scanBody_tableValid : (scanBody s).tableValid = s.tableValid := rfl
@[simp] theorem scanBody_err : (scanBody s).err = s.err := rfl
@[simp] theorem scanBody_ct : (scanBody s).ct = s.ct := rfl
@[simp] theorem scanBody_rct : (scanBody s).rct = s.rct := rfl
@[simp] theorem scanBody_phase : (scanBody s).phase = s.phase := rfl
@[simp] theorem scanBody_enc : (scanBody s).enc = s.enc := rfl
@[simp] theorem scanBody_dec : (scanBody s).dec =
    { s.dec with buf := (scan s.rct s.dec.body [] []).1, out := (scan s.rct s.dec.body [] []).2 } := rfl
@[simp] theorem scanBody_script : (scanBody s).script = s.script := rfl
@[simp] theorem scanBody_seen : (scanBody s).seen = s.seen := rfl
@[simp] theorem scanBody_draws : (scanBody s).draws = s.draws := rfl

/-! `commitDecompress` (R156) -/

@[simp] theorem commitDecompress_ibuf : (commitDecompress s).ibuf = s.ibuf := rfl
@[simp] theorem commitDecompress_ilen : (commitDecompress s).ilen = s.ilen := rfl
@[simp] theorem commitDecompress_obuf : (commitDecompress s).obuf = Memory.ofBytes s.dec.out := rfl
@[simp] theorem commitDecompress_olen : (commitDecompress s).olen = s.dec.out.length := rfl
@[simp] theorem commitDecompress_done : (commitDecompress s).done = true := rfl
@[simp] theorem commitDecompress_tableValid : (commitDecompress s).tableValid = s.tableValid := rfl
@[simp] theorem commitDecompress_err : (commitDecompress s).err = s.err := rfl
@[simp] theorem commitDecompress_ct : (commitDecompress s).ct = s.ct := rfl
@[simp] theorem commitDecompress_rct : (commitDecompress s).rct = s.rct := rfl
@[simp] theorem commitDecompress_phase : (commitDecompress s).phase = .idle := rfl
@[simp] theorem commitDecompress_enc : (commitDecompress s).enc = Config.freeEncoderWork s.draws := rfl
@[simp] theorem commitDecompress_dec : (commitDecompress s).dec = Config.freeDecoderWork s.draws := rfl
@[simp] theorem commitDecompress_script : (commitDecompress s).script = s.script := rfl
@[simp] theorem commitDecompress_seen : (commitDecompress s).seen = s.seen := rfl
@[simp] theorem commitDecompress_draws : (commitDecompress s).draws = s.draws + 1 := rfl

end Sys2Proof.Machine
end

