-- ==== Sys2Proof/Laws/Commands.lean ====
section
/-!
SUPPORT. What `COMPRESS` and `DECOMPRESS` do, each said once (spec/40_encoder.md R100, spec/41_decoder.md R140, R167).
-/

namespace Sys2Proof.Machine

/-! ## Reading the input -/

@[simp] theorem length_inputBytes (s : State) (n : Nat) : (s.inputBytes n).length = n := by simp [State.inputBytes]

@[simp] theorem length_input (s : State) : s.input.length = s.ilen := by simp [State.input]

theorem getElem?_inputBytes (s : State) {n k : Nat} (h : k < n) : (s.inputBytes n)[k]? = some (s.ibufByte k) := by
  simp [State.inputBytes, h]

/-- `IBUF[0..n)` is a function of what the block reads from `IBUF`. -/
theorem inputBytes_congr {s t : State} (hi : t.ibuf = s.ibuf) (hd : t.draws = s.draws) (n : Nat) :
    t.inputBytes n = s.inputBytes n := by
  have : t.ibufByte = s.ibufByte := by funext i; simp [State.ibufByte, hi, hd]
  simp [State.inputBytes, this]

theorem inputBytes_take (s : State) {m n : Nat} (h : m ≤ n) : (s.inputBytes n).take m = s.inputBytes m := by
  simp [State.inputBytes, ← List.map_take, List.take_range, h]

theorem trimLen_le (rd : Nat → Byte) (n : Nat) : trimLen rd n ≤ n := by
  induction n with
  | zero => simp [trimLen]
  | succ n ih => unfold trimLen; split_ifs <;> omega

/-- `trim_len` (R103): the byte before the length found is no white space, every byte from there on is. -/
theorem trimLen_spec (rd : Nat → Byte) (n : Nat) :
    (trimLen rd n = 0 ∨ isWhite (rd (trimLen rd n - 1)) = false) ∧
      ∀ i, trimLen rd n ≤ i → i < n → isWhite (rd i) = true := by
  induction n with
  | zero => simp [trimLen]
  | succ n ih =>
    unfold trimLen
    split_ifs with h
    · refine ⟨ih.1, fun i hi hlt => ?_⟩
      rcases Nat.lt_succ_iff_lt_or_eq.1 hlt with hlt | rfl
      · exact ih.2 i hi hlt
      · exact h
    · exact ⟨.inr (by simpa using h), fun i hi hlt => by omega⟩

/-! ## The commands, phase by phase -/

@[simp] theorem andThen_idle {f : State → State} {s : State} (h : s.phase = .idle) : State.andThen f s = s := if_pos h

@[simp] theorem andThen_busy {f : State → State} {s : State} (h : s.phase ≠ .idle) : State.andThen f s = f s := if_neg h

@[simp] theorem andThen_raise (f : State → State) (s : State) (k : ErrKind) :
    State.andThen f (s.raise k) = s.raise k := if_pos rfl

/-- The state `COMPRESS` has reached before `E_BUILD`. -/
def counted (s : State) : State := eFreq (eTrim (s.start .eTrim))

@[simp] theorem counted_ibuf (s : State) : (counted s).ibuf = s.ibuf := rfl
@[simp] theorem counted_draws (s : State) : (counted s).draws = s.draws := rfl
@[simp] theorem counted_phase (s : State) : (counted s).phase = .eBuild := rfl

theorem counted_trimmed (s : State) : (counted s).trimmed = s.trimmedInput := by
  show (counted s).inputBytes (counted s).enc.tlen = _
  rw [inputBytes_congr (counted_ibuf s) (counted_draws s)]; rfl

theorem trimmed_eTrim (s : State) : (eTrim (s.start .eTrim)).trimmed = s.trimmedInput :=
  inputBytes_congr (t := eTrim (s.start .eTrim)) rfl rfl _

theorem counted_freq (s : State) : (counted s).enc.freq = countSymbols s.trimmedInput := by
  rw [← trimmed_eTrim]; simp only [counted, eFreq]

theorem counted_n (s : State) : (counted s).enc.n = (alphabet (countSymbols s.trimmedInput)).length := by
  rw [← trimmed_eTrim]; simp only [counted, eFreq]

theorem compress_eq (s : State) :
    compress s = State.andThen ePack (State.andThen eCode (eBuild (counted s))) := rfl

/-- `COMPRESS` of a blank text: `E_BUILD` raises (R100, R110). -/
theorem compress_blank {s : State} (h : s.trimmedInput = []) : compress s = (counted s).raise .emptyAlphabet := by
  have h0 : (counted s).enc.n = 0 := by
    rw [counted_n, (alphabet_countSymbols_eq_nil _).2 h]; rfl
  rw [compress_eq, eBuild, if_pos h0, andThen_raise, andThen_raise]

/-- `COMPRESS` of a text: all five phases run (R100, R101). -/
theorem compress_text {s : State} (h : s.trimmedInput ≠ []) : compress s = ePack (eCode (eBuild (counted s))) := by
  have h0 : (counted s).enc.n ≠ 0 := by
    rw [counted_n]
    exact fun e => h ((alphabet_countSymbols_eq_nil _).1 (List.length_eq_zero_iff.1 e))
  rw [compress_eq, eBuild, if_neg h0, andThen_busy (f := eCode) (by simp), andThen_busy (f := ePack) (by simp [eCode])]

/-- The forest `E_BUILD` leaves is `buildTree` of `FREQ`. -/
theorem eBuild_forest {s : State} (h : s.enc.n ≠ 0) :
    (eBuild s).enc.node = (buildTree Config.tie s.enc.freq).node ∧
      (eBuild s).enc.pq = (buildTree Config.tie s.enc.freq).pq ∧
      (eBuild s).enc.next = (buildTree Config.tie s.enc.freq).node.length ∧
      (eBuild s).enc.root = ((buildTree Config.tie s.enc.freq).pq.head?).getD (Config.freeRoot s.draws) := by
  rw [eBuild, if_neg h]; exact ⟨rfl, rfl, rfl, rfl⟩

/-- What `E_PACK` writes to `OBUF` and `OLEN` (R125 to R127). -/
theorem ePack_result (s : State) : (ePack s).resultIs
    (toBytes (streamOf (padAmount (s.trimmed.flatMap s.codeOf).length) (s.trimmed.flatMap s.codeOf))) := ⟨rfl, rfl⟩

/-- What `COMPRESS` derives and packs: the table of the trimmed input, and its codes for that input. -/
theorem compress_table {s : State} {ct : CodeTable} (h : s.trimmedInput ≠ [])
    (hct : tableFor Config.tie s.trimmedInput = some ct) :
    (eCode (eBuild (counted s))).ct = ct ∧ (eCode (eBuild (counted s))).rct = invert ct := by
  have hne : alphabet (countSymbols s.trimmedInput) ≠ [] := fun e => h ((alphabet_countSymbols_eq_nil _).1 e)
  have h0 : (counted s).enc.n ≠ 0 := by rw [counted_n]; exact fun e => hne (List.length_eq_zero_iff.1 e)
  obtain ⟨-, hpq, -⟩ := buildTree_spec refinesFrequency_tie hne
  obtain ⟨h1, h2, h3, h4⟩ := eBuild_forest h0
  rw [counted_freq, hpq] at h4
  simp only [List.head?_cons, Option.getD_some] at h4
  have : (eBuild (counted s)).derivedTable = ct := by
    rw [State.derivedTable, h1, h4, counted_freq]
    rw [tableFor, hpq] at hct
    simp only [List.head?_cons, Option.bind_some] at hct
    rw [hct]; rfl
  exact ⟨this, congrArg invert this⟩

/-- The result of a `COMPRESS` of a text (R100, R125 to R129). -/
theorem compress_result {s : State} {ct : CodeTable} (h : s.trimmedInput ≠ [])
    (hct : tableFor Config.tie s.trimmedInput = some ct) :
    (compress s).ct = ct ∧ (compress s).rct = invert ct ∧
      (compress s).resultIs
        (toBytes (streamOf (padAmount (ct.bitsOf s.trimmedInput).length) (ct.bitsOf s.trimmedInput))) := by
  have hne : alphabet (countSymbols s.trimmedInput) ≠ [] := fun e => h ((alphabet_countSymbols_eq_nil _).1 e)
  have h0 : (counted s).enc.n ≠ 0 := by rw [counted_n]; exact fun e => hne (List.length_eq_zero_iff.1 e)
  obtain ⟨ct', t, hct', hw, -, -, -, hhas, -⟩ := tableFor_spec refinesFrequency_tie h
  rw [hct] at hct'; cases hct'
  obtain ⟨h1, h2⟩ := compress_table h hct
  have htr : (eCode (eBuild (counted s))).trimmed = s.trimmedInput := by
    rw [← counted_trimmed, eBuild, if_neg h0]; rfl
  have hbits : (eCode (eBuild (counted s))).trimmed.flatMap (eCode (eBuild (counted s))).codeOf
      = ct.bitsOf s.trimmedInput := by
    rw [htr, CodeTable.bitsOf]
    refine List.flatMap_congr fun a ha => ?_
    rw [State.codeOf, h1]
    obtain ⟨c, hc⟩ := Option.isSome_iff_exists.1 ((CodeTable.has_iff_isSome hw a).1 ((hhas a).2 ha))
    rw [hc]; rfl
  rw [compress_text h]
  refine ⟨h1, h2, ?_⟩
  have := ePack_result (eCode (eBuild (counted s)))
  rwa [hbits] at this

/-- `u` is a state inside a command that began in `s`, before anything that outlives a command was written. -/
structure Inside (s u : State) : Prop where
  ibuf : u.ibuf = s.ibuf
  ilen : u.ilen = s.ilen
  ct : u.ct = s.ct
  rct : u.rct = s.rct
  tableValid : u.tableValid = s.tableValid
  script : u.script = s.script
  seen : u.seen = s.seen
  draws : u.draws = s.draws
  done : u.done = false
  err : u.err = .none

theorem Inside.start (s : State) (p : Phase) : Inside s (s.start p) := ⟨rfl, rfl, rfl, rfl, rfl, rfl, rfl, rfl, rfl, rfl⟩

theorem Inside.ibufByte {s u : State} (h : Inside s u) : u.ibufByte = s.ibufByte := by
  funext i; simp [State.ibufByte, h.ibuf, h.draws]

theorem Inside.input {s u : State} (h : Inside s u) : u.input = s.input := by
  simp [State.input, State.inputBytes, h.ibufByte, h.ilen]

theorem inside_counted (s : State) : Inside s (counted s) := ⟨rfl, rfl, rfl, rfl, rfl, rfl, rfl, rfl, rfl, rfl⟩

theorem Inside.eBuild {s u : State} (h : Inside s u) (hn : u.enc.n ≠ 0) : Inside s (eBuild u) := by
  rw [Machine.eBuild, if_neg hn]
  constructor <;> simp [h.ibuf, h.ilen, h.ct, h.rct, h.tableValid, h.script, h.seen, h.draws, h.done, h.err]

theorem Inside.packed {s u : State} (h : Inside s u) :
    Inside s { packBytes (packStream (packPad (packBits (eCode u)))) with ct := s.ct, rct := s.rct } := by
  constructor <;> simp [h.ibuf, h.ilen, h.tableValid, h.script, h.seen, h.draws, h.done, h.err]

/-- Everything `COMPRESS` can do (R100, R132): raise `EmptyAlphabet` on a blank text, or commit a new table and its
output. -/
theorem compress_cases (s : State) :
    (s.trimmedInput = [] ∧ ∃ u, Inside s u ∧ compress s = u.raise .emptyAlphabet) ∨
    (s.trimmedInput ≠ [] ∧ ∃ u ct, tableFor Config.tie s.trimmedInput = some ct ∧
      Inside s { u with ct := s.ct, rct := s.rct } ∧ u.ct = ct ∧ u.rct = invert ct ∧
      u.resultIs (toBytes (streamOf (padAmount (ct.bitsOf s.trimmedInput).length) (ct.bitsOf s.trimmedInput))) ∧
      compress s = commitCompress u) := by
  by_cases h : s.trimmedInput = []
  · exact .inl ⟨h, counted s, inside_counted s, compress_blank h⟩
  · obtain ⟨ct, t, hct, -⟩ := tableFor_spec refinesFrequency_tie h
    obtain ⟨h1, h2, h3⟩ := compress_result h hct
    have hne : (counted s).enc.n ≠ 0 := by
      rw [counted_n]
      exact fun e => h ((alphabet_countSymbols_eq_nil _).1 (List.length_eq_zero_iff.1 e))
    refine .inr ⟨h, packBytes (packStream (packPad (packBits (eCode (eBuild (counted s)))))), ct, hct, ?_, ?_, ?_, ?_, ?_⟩
    · exact ((inside_counted s).eBuild hne).packed
    · rwa [compress_text h, ePack, commitCompress_ct] at h1
    · rwa [compress_text h, ePack, commitCompress_rct] at h2
    · rwa [compress_text h, ePack, State.resultIs, commitCompress_obuf, commitCompress_olen] at h3
    · rw [compress_text h, ePack]

/-- The bits a `DECOMPRESS` scans: those after the header, less the padding the header counts (R150). -/
def State.body (s : State) : BitString :=
  let rest := (s.input.drop 1).flatMap bits8
  rest.take (rest.length - (s.ibufByte 0).toNat)

theorem input_cons {s : State} (h : s.ilen ≠ 0) : s.input = s.ibufByte 0 :: s.input.drop 1 := by
  obtain ⟨n, hn⟩ := Nat.exists_eq_succ_of_ne_zero h
  simp [State.input, State.inputBytes, hn, List.range_succ_eq_map]

theorem Inside.dExpand {s u : State} (h : Inside s u) : Inside s (dExpand u) :=
  ⟨h.ibuf, h.ilen, h.ct, h.rct, h.tableValid, h.script, h.seen, h.draws, h.done, h.err⟩

theorem Inside.dropHeader {s u : State} (h : Inside s u) : Inside s (dropHeader u) :=
  ⟨h.ibuf, h.ilen, h.ct, h.rct, h.tableValid, h.script, h.seen, h.draws, h.done, h.err⟩

theorem Inside.scanBody {s u : State} (h : Inside s u) : Inside s (scanBody (dropPadding u)) :=
  ⟨h.ibuf, h.ilen, h.ct, h.rct, h.tableValid, h.script, h.seen, h.draws, h.done, h.err⟩

/-- `D_HDR` with a header byte (R146). -/
theorem dHdr_of_le {u : State} (h : 8 ≤ u.dec.dbits.length) :
    dHdr u = { u with dec := { u.dec with pad := val (slice u.dec.dbits 0 8) }, phase := .dStrip } :=
  if_neg (Nat.not_lt.2 h)

/-- `D_STRIP`, `D_SCAN` and the end of `DECOMPRESS`, from the state `D_HDR` leaves (R150 to R156). -/
theorem strip_cases (u : State) :
    ((dropHeader u).dec.rest.length < u.dec.pad ∧
      State.andThen dScan (dStrip u) = (dropHeader u).raise .corruptPadding) ∨
    (u.dec.pad ≤ (dropHeader u).dec.rest.length ∧
      (scan u.rct (dropPadding (dropHeader u)).dec.body [] []).1 ≠ [] ∧
      State.andThen dScan (dStrip u) = (scanBody (dropPadding (dropHeader u))).raise .corruptPadding) ∨
    (u.dec.pad ≤ (dropHeader u).dec.rest.length ∧
      (scan u.rct (dropPadding (dropHeader u)).dec.body [] []).1 = [] ∧
      State.andThen dScan (dStrip u) = commitDecompress (scanBody (dropPadding (dropHeader u)))) := by
  by_cases hp : u.dec.pad > (dropHeader u).dec.rest.length
  · exact .inl ⟨hp, by rw [dStrip, if_pos hp, andThen_raise]⟩
  · refine .inr ?_
    have e : State.andThen dScan (dStrip u) = dScan (dropPadding (dropHeader u)) := by
      rw [dStrip, if_neg hp]; exact if_neg Phase.noConfusion
    rw [e, dScan]
    by_cases hb : (scanBody (dropPadding (dropHeader u))).dec.buf = []
    · exact .inr ⟨Nat.not_lt.1 hp, hb, by rw [if_neg (not_not.2 hb)]⟩
    · exact .inl ⟨Nat.not_lt.1 hp, hb, by rw [if_pos hb]⟩

/-- `D_HDR` to the end of `DECOMPRESS`, on the bits of a header byte and of what follows it. -/
theorem header_cases {s u : State} (h : Inside s u) {rest : BitString} (hb : u.dec.dbits = bits8 (s.ibufByte 0) ++ rest)
    (hr : rest = (s.input.drop 1).flatMap bits8) :
    ∃ v, Inside s v ∧
    ((rest.length < (s.ibufByte 0).toNat ∧
      State.andThen dScan (State.andThen dStrip (dHdr u)) = v.raise .corruptPadding) ∨
    ((s.ibufByte 0).toNat ≤ rest.length ∧ (scan s.rct s.body [] []).1 ≠ [] ∧
      State.andThen dScan (State.andThen dStrip (dHdr u)) = v.raise .corruptPadding) ∨
    ((s.ibufByte 0).toNat ≤ rest.length ∧ (scan s.rct s.body [] []).1 = [] ∧
      v.dec.out = (scan s.rct s.body [] []).2 ∧
      State.andThen dScan (State.andThen dStrip (dHdr u)) = commitDecompress v)) := by
  have h8 : (bits8 (s.ibufByte 0)).length = 8 := rfl
  have hle : 8 ≤ u.dec.dbits.length := by rw [hb, List.length_append, h8]; omega
  obtain ⟨w, hw⟩ : ∃ w, w = dHdr u := ⟨_, rfl⟩
  have hw' := hw
  rw [dHdr_of_le hle] at hw'
  have hpad : w.dec.pad = (s.ibufByte 0).toNat := by
    rw [hw', ← val_bits8, hb]
    exact congrArg val (List.take_left' h8)
  have hrest : (dropHeader w).dec.rest = rest := by
    have : (dropHeader w).dec.rest = slice u.dec.dbits 8 u.dec.dbits.length := by rw [hw']; rfl
    rw [this, hb, slice, List.drop_left' h8, List.take_of_length_le (by simp)]
  have hin : Inside s (dropHeader w) := by
    refine Inside.dropHeader ?_
    rw [hw']
    exact ⟨h.ibuf, h.ilen, h.ct, h.rct, h.tableValid, h.script, h.seen, h.draws, h.done, h.err⟩
  have hrct : w.rct = s.rct := hin.rct
  have hbody : (dropPadding (dropHeader w)).dec.body = s.body := by
    have : (dropPadding (dropHeader w)).dec.body
        = slice (dropHeader w).dec.rest 0 ((dropHeader w).dec.rest.length - w.dec.pad) := rfl
    rw [this, hrest, hpad, slice, List.drop_zero, Nat.sub_zero, hr]; rfl
  have hgo : State.andThen dScan (State.andThen dStrip (dHdr u)) = State.andThen dScan (dStrip w) := by
    rw [← hw, andThen_busy (f := dStrip) (by rw [hw']; exact Phase.noConfusion)]
  rw [hgo]
  have := strip_cases w
  rw [hrest, hpad, hrct, hbody] at this
  rcases this with ⟨h1, h2⟩ | ⟨h1, h2, h3⟩ | ⟨h1, h2, h3⟩
  · exact ⟨_, hin, .inl ⟨h1, h2⟩⟩
  · exact ⟨_, hin.scanBody, .inr (.inl ⟨h1, h2, h3⟩)⟩
  · refine ⟨_, hin.scanBody, .inr (.inr ⟨h1, h2, ?_, h3⟩)⟩
    have : (scanBody (dropPadding (dropHeader w))).dec.out
        = (scan w.rct (dropPadding (dropHeader w)).dec.body [] []).2 := rfl
    rw [this, hrct, hbody]

/-- Everything `DECOMPRESS` can do (R140, R167): the four errors in the order they are tested, or the result. -/
theorem decompress_cases (s : State) : ∃ u, Inside s u ∧
    ((s.tableValid = false ∧ decompress s = u.raise .missingCodeTable) ∨
    (s.tableValid = true ∧ s.ilen = 0 ∧ decompress s = u.raise .corruptPadding) ∨
    (s.tableValid = true ∧ s.ilen ≠ 0 ∧ 8 * (s.ilen - 1) < (s.ibufByte 0).toNat ∧
      decompress s = u.raise .corruptPadding) ∨
    (s.tableValid = true ∧ s.ilen ≠ 0 ∧ (s.ibufByte 0).toNat ≤ 8 * (s.ilen - 1) ∧ (scan s.rct s.body [] []).1 ≠ [] ∧
      decompress s = u.raise .corruptPadding) ∨
    (s.tableValid = true ∧ s.ilen ≠ 0 ∧ (s.ibufByte 0).toNat ≤ 8 * (s.ilen - 1) ∧ (scan s.rct s.body [] []).1 = [] ∧
      u.dec.out = (scan s.rct s.body [] []).2 ∧ decompress s = commitDecompress u)) := by
  have hstart := Inside.start s .dCheck
  have hd : decompress s = State.andThen dScan (State.andThen dStrip (State.andThen dHdr (State.andThen dExpand
      (dCheck (s.start .dCheck))))) :=
    congrArg (fun u => State.andThen dScan (State.andThen dStrip (State.andThen dHdr (State.andThen dExpand u))))
      (if_neg Phase.noConfusion)
  by_cases htv : s.tableValid = false
  · refine ⟨_, hstart, .inl ⟨htv, ?_⟩⟩
    rw [hd, dCheck, if_pos (hstart.tableValid.trans htv)]
    simp only [andThen_raise]
  have hin : Inside s { s.start .dCheck with phase := .dExpand } :=
    ⟨rfl, rfl, rfl, rfl, rfl, rfl, rfl, rfl, rfl, rfl⟩
  obtain ⟨u, hu⟩ : ∃ u, u = dExpand { s.start .dCheck with phase := .dExpand } := ⟨_, rfl⟩
  have hinu : Inside s u := hu ▸ hin.dExpand
  have hbits : u.dec.dbits = s.input.flatMap bits8 := by rw [hu, ← hin.input]; rfl
  have hphase : u.phase = .dHdr := by rw [hu]; rfl
  have hd1 : decompress s = State.andThen dScan (State.andThen dStrip (dHdr u)) := by
    rw [hd, dCheck, if_neg (fun e => htv (hstart.tableValid.symm.trans e)),
      andThen_busy (f := dExpand) Phase.noConfusion, ← hu, andThen_busy (f := dHdr) (by rw [hphase]; exact Phase.noConfusion)]
  rw [Bool.not_eq_false] at htv
  by_cases h0 : s.ilen = 0
  · refine ⟨u, hinu, .inr (.inl ⟨htv, h0, ?_⟩)⟩
    rw [hd1, dHdr, if_pos (by rw [hbits, length_flatMap_bits8, length_input, h0]; decide)]
    simp only [andThen_raise]
  have hcons : u.dec.dbits = bits8 (s.ibufByte 0) ++ (s.input.drop 1).flatMap bits8 := by
    rw [hbits]; conv_lhs => rw [input_cons h0, List.flatMap_cons]
  have hrl : ((s.input.drop 1).flatMap bits8).length = 8 * (s.ilen - 1) := by
    rw [length_flatMap_bits8, List.length_drop, length_input]
  obtain ⟨v, hv, hcase⟩ := header_cases hinu hcons rfl
  rw [← hd1, hrl] at hcase
  refine ⟨v, hv, .inr (.inr ?_)⟩
  rcases hcase with ⟨h1, h2⟩ | ⟨h1, h2, h3⟩ | ⟨h1, h2, h3, h4⟩
  · exact .inl ⟨htv, h0, h1, h2⟩
  · exact .inr (.inl ⟨htv, h0, h1, h2, h3⟩)
  · exact .inr (.inr ⟨htv, h0, h1, h2, h3, h4⟩)

end Sys2Proof.Machine
end

