-- ==== Sys2Proof/Laws/Memory.lean ====
section
/-!
SUPPORT. Byte buffers: a read after a write, what a result and a `LOAD` list, and that every operation keeps the form
(spec/00_scope.md R15, spec/10_state.md R24, R42).
-/

namespace Sys2Proof.Machine

@[simp] theorem Memory.read?_nil (i : Nat) : Memory.read? [] i = none := rfl

@[simp] theorem Memory.read?_cons (c : Host.Cell) (m : Memory) (i : Nat) :
    Memory.read? (c :: m) i = if i = c.1 then some c.2 else m.read? i := by
  obtain ⟨a, b⟩ := c
  by_cases h : i = a
  · simp [Memory.read?, List.lookup, h]
  · simp [Memory.read?, List.lookup, h, beq_eq_false_iff_ne.2 h]

/-- A read after a write: the byte written at its own index, every other byte as before. -/
@[simp] theorem Memory.read?_write (m : Memory) (i j : Nat) (b : Byte) :
    (m.write i b).read? j = if j = i then some b else m.read? j := by
  induction m with
  | nil => simp [Memory.write]
  | cons c r ih =>
    unfold Memory.write
    split_ifs with h₁ h₂ <;> by_cases hj : j = i <;> simp_all

theorem Memory.wf_iff (m : Memory) : m.wf = true ↔ m.Pairwise fun a b => a.1 < b.1 := by
  simp [Memory.wf]

/-- The addresses a write leaves listed: the old ones and its own. -/
theorem Memory.fst_of_mem_write {m : Memory} {i : Nat} {b : Byte} {c : Host.Cell} (h : c ∈ m.write i b) :
    c.1 = i ∨ c ∈ m := by
  induction m with
  | nil => simp [Memory.write] at h; simp [h]
  | cons d r ih =>
    unfold Memory.write at h
    split_ifs at h <;> simp only [List.mem_cons] at h ⊢
    · rcases h with rfl | h | h <;> simp_all
    · rcases h with rfl | h <;> simp_all
    · rcases h with rfl | h
      · simp
      · rcases ih h with h | h <;> simp [h]

theorem Memory.wf_write {m : Memory} (h : m.wf = true) (i : Nat) (b : Byte) : (m.write i b).wf = true := by
  rw [Memory.wf_iff] at *
  induction m with
  | nil => simp [Memory.write]
  | cons c r ih =>
    obtain ⟨hc, hr⟩ := List.pairwise_cons.1 h
    unfold Memory.write
    split_ifs with h₁ h₂
    · refine List.pairwise_cons.2 ⟨?_, h⟩
      intro d hd
      rcases List.mem_cons.1 hd with rfl | hd
      · exact h₁
      · exact h₁.trans (hc d hd)
    · exact List.pairwise_cons.2 ⟨fun d hd => h₂ ▸ hc d hd, hr⟩
    · refine List.pairwise_cons.2 ⟨fun d hd => ?_, ih hr⟩
      rcases Memory.fst_of_mem_write hd with hd | hd
      · omega
      · exact hc d hd

theorem read?_cellsFrom (bs : List Byte) (k i : Nat) :
    Memory.read? (cellsFrom k bs) i = if k ≤ i then bs[i - k]? else none := by
  induction bs generalizing k with
  | nil => simp [cellsFrom]
  | cons b r ih =>
    rw [cellsFrom, Memory.read?_cons, ih]
    by_cases h : i = k
    · simp [h]
    · by_cases hk : k ≤ i
      · obtain ⟨d, rfl⟩ : ∃ d, i = k + 1 + d := ⟨i - (k + 1), by omega⟩
        simp only [show k + 1 + d - k = d + 1 by omega, List.getElem?_cons_succ]
        rw [if_neg h, if_pos (by omega), if_pos hk, Nat.add_sub_cancel_left]
      · simp [h, hk]; omega

/-- The bytes of a result: listed up to their number, unspecified from there on. -/
@[simp] theorem Memory.read?_ofBytes (bs : List Byte) (i : Nat) : (Memory.ofBytes bs).read? i = bs[i]? := by
  simp [Memory.ofBytes, read?_cellsFrom]

theorem wf_cellsFrom (bs : List Byte) (k : Nat) :
    Memory.wf (cellsFrom k bs) = true ∧ ∀ c ∈ cellsFrom k bs, k ≤ c.1 := by
  induction bs generalizing k with
  | nil => simp [cellsFrom, Memory.wf]
  | cons b r ih =>
    obtain ⟨hw, hk⟩ := ih (k + 1)
    rw [Memory.wf_iff] at *
    refine ⟨List.pairwise_cons.2 ⟨fun c hc => hk c hc, hw⟩, ?_⟩
    intro c hc
    rcases List.mem_cons.1 hc with rfl | hc
    · rfl
    · exact (Nat.le_succ k).trans (hk c hc)

theorem Memory.wf_ofBytes (bs : List Byte) : (Memory.ofBytes bs).wf = true := (wf_cellsFrom bs 0).1

theorem Memory.read?_writeBytes (m : Memory) (bs : List Byte) (k i : Nat) :
    (m.writeBytes k bs).read? i = if k ≤ i ∧ i < k + bs.length then bs[i - k]? else m.read? i := by
  induction bs generalizing m k with
  | nil => simp [Memory.writeBytes]
  | cons b r ih =>
    rw [Memory.writeBytes, ih, Memory.read?_write]
    by_cases h : i = k
    · simp [h]
    · by_cases hk : k ≤ i
      · obtain ⟨d, rfl⟩ : ∃ d, i = k + 1 + d := ⟨i - (k + 1), by omega⟩
        simp only [show k + 1 + d - k = d + 1 by omega, List.getElem?_cons_succ, List.length_cons]
        simp
        split_ifs <;> first | rfl | omega
      · simp [h, hk]; omega

theorem Memory.wf_writeBytes {m : Memory} (h : m.wf = true) (bs : List Byte) (k : Nat) :
    (m.writeBytes k bs).wf = true := by
  induction bs generalizing m k with
  | nil => exact h
  | cons b r ih => exact ih (Memory.wf_write h k b) (k + 1)

/-- The buffers right after reset have the form every operation keeps. -/
theorem wf_reset : State.reset.ibuf.wf = true ∧ State.reset.obuf.wf = true := by decide

/-- Every host access keeps the form of both buffers. -/
theorem wf_hostAccess (a : HostAccess) {s : State} (hi : s.ibuf.wf = true) (ho : s.obuf.wf = true) :
    (hostAccess a s).ibuf.wf = true ∧ (hostAccess a s).obuf.wf = true := by
  cases a with
  | reset => exact wf_reset
  | writeIbuf i b => exact ⟨Memory.wf_write hi i b, ho⟩
  | copy => exact ⟨Memory.wf_writeBytes hi _ 0, ho⟩
  | _ => exact ⟨hi, ho⟩

end Sys2Proof.Machine
end

