-- ==== Sys2Proof/Laws/PerInstr.lean ====
section
/-!
SUPPORT. Statements about instructions as syntax, one lemma a constructor.
-/

/-- The host can issue an instruction exactly if its word is a command word (spec/30_encoding.md R71, R74). -/
def Sys2Proof.Laws.IssuableWord.Statement (i : Sys2Proof.Instr) : Prop :=
  i.issuable = true ↔ ∃ c, Sys2Proof.encode i = .cmd8 c

theorem Sys2Proof.Laws.IssuableWord.compress : Sys2Proof.Laws.IssuableWord.Statement .compress := by
  simp [Statement, Sys2Proof.Instr.issuable, Sys2Proof.instrPhase, Sys2Proof.encode]

theorem Sys2Proof.Laws.IssuableWord.decompress : Sys2Proof.Laws.IssuableWord.Statement .decompress := by
  simp [Statement, Sys2Proof.Instr.issuable, Sys2Proof.instrPhase, Sys2Proof.encode]

theorem Sys2Proof.Laws.IssuableWord.idle : Sys2Proof.Laws.IssuableWord.Statement .idle := by
  simp [Statement, Sys2Proof.Instr.issuable, Sys2Proof.instrPhase, Sys2Proof.encode]

theorem Sys2Proof.Laws.IssuableWord.eTrim : Sys2Proof.Laws.IssuableWord.Statement .eTrim := by
  simp [Statement, Sys2Proof.Instr.issuable, Sys2Proof.instrPhase, Sys2Proof.encode]

theorem Sys2Proof.Laws.IssuableWord.eFreq : Sys2Proof.Laws.IssuableWord.Statement .eFreq := by
  simp [Statement, Sys2Proof.Instr.issuable, Sys2Proof.instrPhase, Sys2Proof.encode]

theorem Sys2Proof.Laws.IssuableWord.eBuild : Sys2Proof.Laws.IssuableWord.Statement .eBuild := by
  simp [Statement, Sys2Proof.Instr.issuable, Sys2Proof.instrPhase, Sys2Proof.encode]

theorem Sys2Proof.Laws.IssuableWord.eCode : Sys2Proof.Laws.IssuableWord.Statement .eCode := by
  simp [Statement, Sys2Proof.Instr.issuable, Sys2Proof.instrPhase, Sys2Proof.encode]

theorem Sys2Proof.Laws.IssuableWord.ePack : Sys2Proof.Laws.IssuableWord.Statement .ePack := by
  simp [Statement, Sys2Proof.Instr.issuable, Sys2Proof.instrPhase, Sys2Proof.encode]

theorem Sys2Proof.Laws.IssuableWord.dCheck : Sys2Proof.Laws.IssuableWord.Statement .dCheck := by
  simp [Statement, Sys2Proof.Instr.issuable, Sys2Proof.instrPhase, Sys2Proof.encode]

theorem Sys2Proof.Laws.IssuableWord.dExpand : Sys2Proof.Laws.IssuableWord.Statement .dExpand := by
  simp [Statement, Sys2Proof.Instr.issuable, Sys2Proof.instrPhase, Sys2Proof.encode]

theorem Sys2Proof.Laws.IssuableWord.dHdr : Sys2Proof.Laws.IssuableWord.Statement .dHdr := by
  simp [Statement, Sys2Proof.Instr.issuable, Sys2Proof.instrPhase, Sys2Proof.encode]

theorem Sys2Proof.Laws.IssuableWord.dStrip : Sys2Proof.Laws.IssuableWord.Statement .dStrip := by
  simp [Statement, Sys2Proof.Instr.issuable, Sys2Proof.instrPhase, Sys2Proof.encode]

theorem Sys2Proof.Laws.IssuableWord.dScan : Sys2Proof.Laws.IssuableWord.Statement .dScan := by
  simp [Statement, Sys2Proof.Instr.issuable, Sys2Proof.instrPhase, Sys2Proof.encode]
end

