-- ==== Sys2Proof/Laws/Step.lean ====
section
/-!
SUPPORT. What a step can do, said once (spec/00_scope.md R17, spec/10_state.md R25, R30).
-/

namespace Sys2Proof.Machine

theorem decode_encode (i : Instr) : decode (encode i) = some i := by cases i <;> rfl

theorem decode_cmd8 (c : Byte) :
    decode (.cmd8 c) = if c = 0x01#8 then some .compress else if c = 0x02#8 then some .decompress else none := by
  have e : c &&& 0xFF#8 = c := BitVec.and_allOnes
  simp only [decode, matchRow, commandRows, List.find?, e]
  by_cases h1 : c = 0x01#8
  · simp [h1]
  · by_cases h2 : c = 0x02#8
    · simp [h2]
    · simp [h1, h2, beq_eq_false_iff_ne.2 h1, beq_eq_false_iff_ne.2 h2]

theorem step_busy {s : State} (h : s.phase ≠ .idle) : step s = exec (phaseInstr s.phase) s := by
  simp only [step, State.fetch, if_neg h, decode_encode]

theorem step_command {s : State} (h : s.phase = .idle) {c : Byte} {r : List HostAction}
    (hs : s.script = .command c :: r) :
    step s = match decode (.cmd8 c) with
      | some i => exec i { s with script := r }
      | none => .refused (.reservedWord (.cmd8 c)) := by
  have e : s.fetch = (.word (.cmd8 c), { s with script := r }) := by rw [State.fetch, if_pos h, hs]
  cases hd : decode (.cmd8 c) <;> simp only [step, e, hd]

theorem step_access {s : State} (h : s.phase = .idle) {a : HostAccess} {r : List HostAction}
    (hs : s.script = .access a :: r) : step s = .next (hostAccess a { s with script := r }) := by
  simp only [step, State.fetch, if_pos h, hs]

theorem step_quiet {s : State} (h : s.phase = .idle) (hs : s.script = []) : step s = .next s := by
  simp only [step, State.fetch, if_pos h, hs]; rfl

/-- Everything a step of a block between commands can do: nothing, a command, a host access, or refuse a reserved
command word. -/
theorem step_idle_cases {s : State} (h : s.phase = .idle) :
    (s.script = [] ∧ step s = .next s) ∨
    (∃ r, s.script = .command 0x01#8 :: r ∧ step s = .next (compress { s with script := r })) ∨
    (∃ r, s.script = .command 0x02#8 :: r ∧ step s = .next (decompress { s with script := r })) ∨
    (∃ a r, s.script = .access a :: r ∧ step s = .next (hostAccess a { s with script := r })) ∨
    (∃ c r, s.script = .command c :: r ∧ c ≠ 0x01#8 ∧ c ≠ 0x02#8 ∧ step s = .refused (.reservedWord (.cmd8 c))) := by
  match hs : s.script with
  | [] => exact .inl ⟨rfl, step_quiet h hs⟩
  | .access a :: r => exact .inr (.inr (.inr (.inl ⟨a, r, rfl, step_access h hs⟩)))
  | .command c :: r =>
    have e := step_command h hs
    rw [decode_cmd8] at e
    split_ifs at e with h1 h2
    · exact .inr (.inl ⟨r, by rw [h1], e⟩)
    · exact .inr (.inr (.inl ⟨r, by rw [h2], e⟩))
    · exact .inr (.inr (.inr (.inr ⟨c, r, rfl, h1, h2, e⟩)))

/-- Every instruction ends in a next state. -/
theorem exec_next (i : Instr) (s : State) : ∃ t, exec i s = .next t := by cases i <;> exact ⟨_, rfl⟩

/-- A command word placed for the next step is what that step runs. -/
theorem step_place_cmd8 (s : State) {c : Byte} {i : Instr} (h : decode (.cmd8 c) = some i) :
    step (s.place (.cmd8 c)) = exec i { s with phase := .idle } := by
  rw [step_command (r := s.script) rfl rfl, h]; rfl

/-- A phase code placed for the next step is the phase that step runs. -/
theorem step_place_ph4 (s : State) {p : BitVec 4} {i : Instr} (h : decode (.ph4 p) = some i) :
    step (s.place (.ph4 p)) = exec i (s.place (.ph4 p)) := by
  have key : ∀ p : BitVec 4, ∀ i : Instr, decode (.ph4 p) = some i →
      ∃ q, instrPhase i = some q ∧ phaseInstr q = i := by
    intro p i
    revert p
    cases i <;> decide
  obtain ⟨q, hq, rfl⟩ := key p i h
  have e : s.place (.ph4 p) = if q = .idle then { s with phase := .idle, script := [] } else { s with phase := q } := by
    simp only [State.place, h, Option.bind_some, hq]
    cases q <;> rfl
  rw [e]
  split_ifs with hidle
  · rw [step_quiet rfl rfl, hidle]; rfl
  · exact step_busy (s := { s with phase := q }) hidle

end Sys2Proof.Machine
end

