-- ==== Sys2Proof/Tests/Slice0.lean ====
section
/-!
SUPPORT. Tests against the vectors of spec/95_test_vectors.md, the smoke test of WellFormed, and one witness for every
statement that has hypotheses. Every expected value is the spec's: the vector's name stands in the comment.
-/

namespace Sys2Proof.Tests

open Sys2Proof Sys2Proof.Machine

/-! ## Helpers -/

/-- The block right after reset with these bytes loaded. -/
def textState (bs : List Byte) : State := { State.reset with ibuf := Memory.ofBytes bs, ilen := bs.length }

/-- The block with this table held and these bytes loaded. -/
def heldState (ct : CodeTable) (bs : List Byte) : State :=
  { textState bs with ct := ct, rct := invert ct, tableValid := true }

/-- The block right after reset with these host actions to come. -/
def scriptState (l : List HostAction) : State := { State.reset with script := l }

/-- The outcome is a next state that passes this check. -/
def ends (o : Host.Outcome State Fault Refusal) (p : State → Bool) : Bool :=
  match o with
  | .next t => p t
  | .fault _ => false
  | .refused _ => false

/-- `"aabbbcc"`. -/
def aabbbcc : List Byte := [0x61#8, 0x61#8, 0x62#8, 0x62#8, 0x62#8, 0x63#8, 0x63#8]

/-- The table of V1: a:`10` b:`0` c:`11`. -/
def tableV1 : CodeTable := [(0x61#8, [true, false]), (0x62#8, [false]), (0x63#8, [true, true])]

/-- The table of V2: a:`0`. -/
def tableV2 : CodeTable := [(0x61#8, [false])]

/-- A frequency table given as a list of counters from Symbol 0x61 on, the others 0. -/
def freqFrom61 (l : List Nat) : FreqTable :=
  ⟨((List.range 256).map fun i => if i < 0x61 then 0 else l.getD (i - 0x61) 0).toArray, by simp⟩

/-- The block before `E_BUILD` with `N` and `FREQ` of these counters. -/
def countedState (l : List Nat) : State :=
  { State.reset with
    phase := .eBuild
    enc := { EncoderWork.reset with freq := freqFrom61 l, n := (l.filter fun k => 0 < k).length } }

/-- The nodes of BD1. -/
def nodesBD1 : List TreeNode :=
  [.leaf 2 0x61#8, .leaf 3 0x62#8, .leaf 2 0x63#8, .internal 4 0 2, .internal 7 1 3]

/-- The block before `E_CODE` with these nodes. -/
def treeState (node : List TreeNode) : State :=
  { State.reset with phase := .eCode, enc := { EncoderWork.reset with node := node, root := node.length - 1 } }

/-- The block before a phase of the decoder, with the table of V1 held and this working state. -/
def decoderState (d : DecoderWork) : State := { heldState tableV1 [] with dec := d }

/-! ## Decoding: words written out from R71 and R74 -/

theorem test_decode_commands :
    decode (.cmd8 0b00000001#8) = some .compress ∧ decode (.cmd8 0b00000010#8) = some .decompress := by decide

theorem test_decode_encoder_phases :
    decode (.ph4 0b0000#4) = some .idle ∧ decode (.ph4 0b0001#4) = some .eTrim ∧
    decode (.ph4 0b0010#4) = some .eFreq ∧ decode (.ph4 0b0011#4) = some .eBuild ∧
    decode (.ph4 0b0100#4) = some .eCode ∧ decode (.ph4 0b0101#4) = some .ePack := by decide

theorem test_decode_decoder_phases :
    decode (.ph4 0b1000#4) = some .dCheck ∧ decode (.ph4 0b1001#4) = some .dExpand ∧
    decode (.ph4 0b1010#4) = some .dHdr ∧ decode (.ph4 0b1011#4) = some .dStrip ∧
    decode (.ph4 0b1100#4) = some .dScan := by decide

/-- R73, R74: the words around the legal ones select nothing. -/
theorem test_decode_reserved :
    decode (.cmd8 0x00#8) = none ∧ decode (.cmd8 0x03#8) = none ∧ decode (.cmd8 0x81#8) = none ∧
    decode (.cmd8 0xFF#8) = none ∧ decode (.ph4 0x6#4) = none ∧ decode (.ph4 0x7#4) = none ∧
    decode (.ph4 0xD#4) = none ∧ decode (.ph4 0xE#4) = none ∧ decode (.ph4 0xF#4) = none := by decide

/-- The thirteen rows of opcode_table.json, at the widths the table gives them. -/
def tableRows : List (Nat × Nat × Instr) :=
  [(8, 0x01, .compress), (8, 0x02, .decompress), (4, 0x0, .idle), (4, 0x1, .eTrim), (4, 0x2, .eFreq),
   (4, 0x3, .eBuild), (4, 0x4, .eCode), (4, 0x5, .ePack), (4, 0x8, .dCheck), (4, 0x9, .dExpand), (4, 0xA, .dHdr),
   (4, 0xB, .dStrip), (4, 0xC, .dScan)]

theorem test_table_rows_decode : ∀ r ∈ tableRows, decodeTableWord r.1 r.2.1 = some r.2.2 := by decide

/-- A phase code widened to a whole byte, where no command has that word (log entry 14). -/
theorem test_widened_phase_codes_decode :
    ∀ r ∈ tableRows, r.1 = 4 → r.2.1 ≠ 1 → r.2.1 ≠ 2 → decodeTableWord 8 r.2.1 = some r.2.2 := by decide

/-- The first step after reset runs the placed row's instruction: it enters the phase the row enters. -/
theorem test_placed_rows_run :
    ∀ r ∈ tableRows, ends (step (State.reset.withFetchWord r.1 r.2.1)) (fun _ => true) = true := by decide

theorem test_placed_phases_enter_the_next :
    ends (step (State.reset.withFetchWord 4 0x1)) (fun t => t.phase == .eFreq) = true ∧
    ends (step (State.reset.withFetchWord 4 0x9)) (fun t => t.phase == .dHdr) = true := by decide

/-! ## WellFormed: an ill-formed term for each check -/

theorem test_ill_formed_command_word : CodeWord.wellFormed (.cmd8 0x03#8) = false := by decide

theorem test_ill_formed_phase_code : CodeWord.wellFormed (.ph4 0x6#4) = false := by decide

theorem test_ill_formed_action : HostAction.wellFormed (.command 0x00#8) = false := by decide

theorem test_ill_formed_script :
    Script.wellFormed [.access .reset, .command 0x01#8, .command 0xFF#8] = false := by decide

theorem test_phase_is_not_issuable : Instr.issuable .eTrim = false ∧ Instr.issuable .compress = true := by decide

theorem test_ill_formed_memory : Memory.wf [(3, 0x00#8), (3, 0x01#8)] = false ∧
    Memory.wf [(3, 0x00#8), (2, 0x01#8)] = false := by decide

theorem test_well_formed : Instr.wellFormed .dScan = true ∧ CodeWord.wellFormed (.ph4 0xC#4) = true := by decide

/-! ## The vectors of spec/95 -/

/-- TR2. -/
theorem test_trim_mixed_white_space :
    ends (exec .eTrim (textState (aabbbcc ++ [0x0A#8, 0x0A#8, 0x20#8, 0x20#8]))) (fun t => t.enc.tlen == 7) = true := by
  decide

/-- TR4, TR10, TR13. -/
theorem test_trim_white_space_set :
    ends (exec .eTrim (textState [0x20#8, 0x0A#8, 0x09#8, 0x0D#8, 0x0B#8, 0x0C#8])) (fun t => t.enc.tlen == 0) = true ∧
    ends (exec .eTrim (textState [0x61#8, 0x62#8, 0x85#8])) (fun t => t.enc.tlen == 3) = true ∧
    ends (exec .eTrim (textState [0x61#8, 0x1F#8])) (fun t => t.enc.tlen == 2) = true := by decide

/-- FQ8. -/
theorem test_freq_counts :
    ends (exec .eFreq { textState [0xFF#8, 0xFF#8, 0x00#8] with enc := { EncoderWork.reset with tlen := 3 } })
      (fun t => t.enc.freq.count 0x00#8 == 1 && t.enc.freq.count 0xFF#8 == 2 && t.enc.freq.count 0x61#8 == 0 &&
        t.enc.n == 2) = true := by decide +kernel

/-- BD6: a leaf pops before an internal node of equal frequency. -/
theorem test_build_leaf_before_internal :
    ends (exec .eBuild (countedState [1, 1, 2])) (fun t => t.enc.root == 4 && t.enc.pq == [4] &&
      t.enc.node == [.leaf 1 0x61#8, .leaf 1 0x62#8, .leaf 2 0x63#8, .internal 2 0 1, .internal 4 2 3]) = true := by
  decide +kernel

/-- BD12. -/
theorem test_build_raises_on_no_symbol :
    ends (exec .eBuild (countedState [])) (fun t => t.phase == .idle && t.status == 0x04#8) = true := by decide +kernel

/-- CD1. -/
theorem test_code_left_is_zero :
    ends (exec .eCode (treeState nodesBD1)) (fun t => t.ct == tableV1 && t.rct == invert tableV1) = true := by decide

/-- CD2. -/
theorem test_code_of_a_root_leaf :
    ends (exec .eCode (treeState [.leaf 4 0x61#8])) (fun t => t.ct == tableV2) = true := by decide

/-- V1, from the table on. -/
theorem test_pack_v1 :
    ends (exec .ePack { heldState tableV1 aabbbcc with enc := { EncoderWork.reset with tlen := 7 } })
      (fun t => t.obuf == [(0, 0x05#8), (1, 0xA1#8), (2, 0xE0#8)] && t.olen == 3 && t.status == 0x03#8) = true := by
  decide

/-- T5, row `k = 8`: no superfluous padding byte. -/
theorem test_pack_aligned :
    ends (exec .ePack { heldState tableV2 (List.replicate 8 0x61#8) with enc := { EncoderWork.reset with tlen := 8 } })
      (fun t => t.obuf == [(0, 0x00#8), (1, 0x00#8)] && t.olen == 2) = true := by decide

/-- V9b, the whole command. -/
theorem test_compress_v9b :
    ends (exec .compress (textState [0x61#8, 0x61#8, 0x62#8, 0x62#8, 0x63#8]))
      (fun t => t.obuf == [(0, 0x00#8), (1, 0xF2#8)] && t.status == 0x03#8 &&
        t.ct == [(0x61#8, [true, true]), (0x62#8, [false]), (0x63#8, [true, false])]) = true := by decide +kernel

/-- ST5: `EmptyAlphabet` with a table held. -/
theorem test_compress_blank_keeps_the_table :
    ends (exec .compress (heldState tableV1 [0x0A#8])) (fun t => t.status == 0x06#8 && t.ct == tableV1) = true := by
  decide +kernel

/-- D1b. -/
theorem test_check_without_a_table :
    ends (exec .dCheck (textState [])) (fun t => t.status == 0x08#8 && t.phase == .idle) = true := by decide

/-- R54: byte 0x05 then byte 0xA1, most significant bit first. -/
theorem test_expand_order :
    ends (exec .dExpand (textState [0x05#8, 0xA1#8])) (fun t => t.dec.dbits ==
      [false, false, false, false, false, true, false, true, true, false, true, false, false, false, false, true]) =
      true := by decide

/-- D13: header 0x10. -/
theorem test_header_above_seven :
    ends (exec .dHdr (decoderState { DecoderWork.reset with dbits := bits8 0x10#8 }))
      (fun t => t.dec.pad == 16 && t.phase == .dStrip) = true := by decide

/-- D5: no header. -/
theorem test_header_missing :
    ends (exec .dHdr (decoderState DecoderWork.reset)) (fun t => t.status == 0x0E#8 && t.phase == .idle) = true := by
  decide

/-- D8 and D7: `PAD` 8 over 8 bits is not an error, 9 is. -/
theorem test_strip_boundary :
    ends (exec .dStrip (decoderState { DecoderWork.reset with dbits := bits8 0x08#8 ++ bits8 0xA1#8, pad := 8 }))
      (fun t => t.dec.body == [] && t.phase == .dScan) = true ∧
    ends (exec .dStrip (decoderState { DecoderWork.reset with dbits := bits8 0x09#8 ++ bits8 0xFF#8, pad := 9 }))
      (fun t => t.status == 0x0E#8 && t.phase == .idle) = true := by decide

/-- D12: `BODY` `101000011` under the table of V1 gives `"aabbbc"`. -/
theorem test_scan :
    ends (exec .dScan (decoderState { DecoderWork.reset with
        body := [true, false, true, false, false, false, false, true, true] }))
      (fun t => t.olen == 6 && t.status == 0x03#8 && t.obuf == Memory.ofBytes (aabbbcc.take 6)) = true := by decide

/-- D3: the leftover `1` after `a`. -/
theorem test_scan_leftover :
    ends (exec .dScan (decoderState { DecoderWork.reset with body := [true, false, true] }))
      (fun t => t.status == 0x0E#8 && t.obuf == [] && t.ct == tableV1) = true := by decide

/-- D10: a wrong header that still parses. -/
theorem test_decompress_d10 :
    ends (exec .decompress (heldState tableV1 [0x00#8, 0xA1#8, 0xE0#8]))
      (fun t => t.olen == 12 && t.status == 0x03#8 && t.obuf == Memory.ofBytes (aabbbcc ++ List.replicate 5 0x62#8)) =
      true := by decide

/-- D21: a `1` bit never matches a one-Symbol table. -/
theorem test_decompress_d21 :
    ends (exec .decompress (heldState tableV2 [0x04#8, 0x80#8])) (fun t => t.status == 0x0E#8) = true := by decide

/-- R30: `IDLE` holds the state. -/
theorem test_idle :
    ends (exec .idle (heldState tableV1 [0x00#8])) (fun t => t.ct == tableV1 && t.ilen == 1 && t.phase == .idle) =
      true := by decide

/-- R91 `DECOMPRESS <bytes>` with no table: the host reads `STATUS = 0x08` (D1). -/
theorem test_host_script_d1 :
    ends (Sys2Proof.core.run 4 (scriptState (decompressActions [0x05#8, 0xA1#8])) : Host.Outcome State Fault Refusal)
      (fun t => t.script == [HostAction.access .readResult] && t.status == 0x08#8) = true := by decide

/-- ST10, ST11: writes to read-only places have no effect; a read of `CMD` gives 0x00. -/
theorem test_host_rights :
    (hostAccess (.writeStatus 0xFF#8) (heldState tableV1 [])).status = 0x02#8 ∧
    (hostAccess .readCmd State.reset).seen = [.cmd 0x00#8] := by decide

/-! ## Witnesses: each shows a state and operands that meet a statement's hypotheses -/

theorem witness_ReservedCommandWordsAreRefused :
    ∀ c ∈ [0x00#8, 0x03#8, 0xFF#8], (scriptState [.command c]).phase = .idle ∧
      (scriptState [.command c]).script = [HostAction.command c] ∧ c ≠ 0x01#8 ∧ c ≠ 0x02#8 := by decide

theorem witness_StepRunsTheDecodedInstruction_word :
    (scriptState [.command 0x02#8]).fetch = (.word (.cmd8 0x02#8), State.reset) ∧
      decode (.cmd8 0x02#8) = some .decompress := ⟨rfl, rfl⟩

theorem witness_StepRunsTheDecodedInstruction_phase : (treeState nodesBD1).phase ≠ .idle := by decide

theorem witness_StepRunsTheDecodedInstruction_host :
    (scriptState [.command 0x01#8]).phase = .idle ∧ (scriptState [.command 0x01#8]).script = [HostAction.command 0x01#8] ∧
    decode (.cmd8 0x01#8) = some .compress ∧ State.reset.phase = .idle ∧ State.reset.script = [] ∧
    (scriptState [.access .readIlen]).script = [HostAction.access .readIlen] := by decide

/-- A specified byte of each buffer, and a specified result with `ERR = NONE`. -/
theorem witness_HostAccessRights :
    let s := { textState aabbbcc with obuf := Memory.ofBytes [0x05#8, 0xA1#8, 0xE0#8], olen := 3 }
    s.err = .none ∧ s.obuf.read? 2 = some 0xE0#8 ∧ s.ibuf.read? 6 = some 0x63#8 ∧
      s.resultIs [0x05#8, 0xA1#8, 0xE0#8] := ⟨rfl, by decide, by decide, rfl, rfl⟩

theorem witness_ResetGivesTheStatedValues :
    let s := { heldState tableV1 aabbbcc with script := [.access .reset, .command 0x01#8] }
    s.phase = .idle ∧ s.script = [HostAction.access .reset, HostAction.command 0x01#8] := by decide

/-- Both ways a block is right after reset. -/
theorem witness_CommandsRightAfterReset :
    (State.reset = State.reset ∨ ∃ s, State.reset = hostAccess .reset s) ∧
    (hostAccess .reset (heldState tableV1 aabbbcc) = State.reset ∨
      ∃ s, hostAccess .reset (heldState tableV1 aabbbcc) = hostAccess .reset s) := ⟨.inl rfl, .inr ⟨_, rfl⟩⟩

theorem witness_HostWritesStoreTheirValue : (textState aabbbcc).ibuf.wf = true := by decide

theorem witness_LoadMakesTheInput :
    let s := { textState aabbbcc with script := loadActions [0x05#8, 0xA1#8] ++ [HostAction.command 0x01#8] }
    s.phase = .idle ∧ s.ibuf.wf = true ∧ s.script = loadActions [0x05#8, 0xA1#8] ++ [HostAction.command 0x01#8] := by decide

theorem witness_BuildRaisesOnEmptyAlphabet : (countedState []).enc.n = 0 := by decide

/-- Three Symbols, and the boundary of one Symbol. -/
theorem witness_BuildMergesTheTwoLeast : ∀ l ∈ [[2, 3, 2], [4]],
    (countedState l).enc.n = (alphabet (countedState l).enc.freq).length ∧ 1 ≤ (countedState l).enc.n := by
  decide +kernel

theorem witness_BuiltTreeIsStrict : ∀ l ∈ [[5, 2, 1, 1], [4]],
    (countedState l).enc.n = (alphabet (countedState l).enc.freq).length ∧ 1 ≤ (countedState l).enc.n := by
  decide +kernel

/-- Both clauses: three Symbols, and one Symbol. -/
theorem witness_CodesAreTheLeafPaths :
    (1 ≤ (alphabet (freqFrom61 [2, 3, 2])).length ∧ 2 ≤ (alphabet (freqFrom61 [2, 3, 2])).length ∧
      (treeState nodesBD1).enc.node = (buildTree Config.tie (freqFrom61 [2, 3, 2])).node ∧
      (treeState nodesBD1).enc.root = 2 * (alphabet (freqFrom61 [2, 3, 2])).length - 2) ∧
    ((alphabet (freqFrom61 [4])).length = 1 ∧
      (treeState [.leaf 4 0x61#8]).enc.node = (buildTree Config.tie (freqFrom61 [4])).node ∧
      (treeState [.leaf 4 0x61#8]).enc.root = 2 * (alphabet (freqFrom61 [4])).length - 2) := by decide +kernel

theorem witness_OneSymbolGetsCodeZero :
    (textState [0x61#8, 0x61#8, 0x20#8]).trimmedInput ≠ [] ∧
      ∀ x ∈ (textState [0x61#8, 0x61#8, 0x20#8]).trimmedInput, x = 0x61#8 := by decide

/-- The aligned clause. -/
theorem witness_PadAmountAlignsWithoutAnExtraByte : 16 % 8 = 0 := rfl

theorem has_of_code? {ct : CodeTable} {a : Symbol} (h : (ct.any fun e => e.1 == a) = true) : ct.has a := by
  obtain ⟨e, he, h⟩ := List.any_eq_true.1 h
  exact ⟨e.2, by simpa [← eq_of_beq h] using he⟩

theorem witness_PackLaysOutTheStream :
    let s := { heldState tableV1 aabbbcc with enc := { EncoderWork.reset with tlen := 7 } }
    ∀ a ∈ s.trimmed, s.ct.has a := fun a ha => has_of_code? (by revert a; decide)

theorem witness_NonemptyText : (textState aabbbcc).trimmedInput ≠ [] := by decide

/-- For CompressOfANonemptyText. -/
theorem witness_CompressOfANonemptyText : (textState aabbbcc).trimmedInput ≠ [] := witness_NonemptyText

theorem witness_CompressOfABlankText :
    (textState [0x20#8, 0x0A#8]).trimmedInput = [] ∧ (textState []).trimmedInput = [] := by decide

/-- Two different states with the same input, of a text that compresses without error. -/
theorem witness_CompressDependsOnTheInputOnly :
    (textState aabbbcc).input = (heldState tableV2 aabbbcc).input ∧ textState aabbbcc ≠ heldState tableV2 aabbbcc ∧
    ends (exec .compress (textState aabbbcc)) (fun t => t.err == .none) = true := by
  refine ⟨by decide, fun h => absurd (congrArg State.tableValid h) (by decide), by decide +kernel⟩

/-- A text with three Symbols, and one with one Symbol. -/
theorem witness_CompressCodesArePrefixFree :
    ((textState aabbbcc).trimmedInput ≠ [] ∧
      ends (exec .compress (textState aabbbcc)) (fun t => decide (2 ≤ t.ct.length)) = true) ∧
    ((textState [0x61#8]).trimmedInput ≠ [] ∧
      ends (exec .compress (textState [0x61#8])) (fun t => decide (t.ct.length = 1)) = true) := by decide +kernel

/-- The eight bits of every Symbol are another prefix code. -/
theorem witness_CompressIsOptimal :
    (textState aabbbcc).trimmedInput ≠ [] ∧ (∀ a ∈ (textState aabbbcc).trimmedInput, bits8 a ≠ []) ∧
    ∀ a ∈ (textState aabbbcc).trimmedInput, ∀ b ∈ (textState aabbbcc).trimmedInput, a ≠ b → ¬ bits8 a <+: bits8 b := by
  decide

/-- Of `"aab"` (V18), `a` occurs more often than `b`. -/
theorem witness_FrequentSymbolsGetNoLongerCodes :
    let s := textState [0x61#8, 0x61#8, 0x62#8]
    s.trimmedInput ≠ [] ∧ (compress s).ct = [(0x61#8, [true]), (0x62#8, [false])] ∧
      s.trimmedInput.count 0x62#8 < s.trimmedInput.count 0x61#8 := by decide +kernel

/-- An order that differs from this machine's: among equal frequencies the greater number pops first. -/
def tieReversed : Config.Tie := fun a b => decide (a.1 < b.1) || (decide (a.1 = b.1) && decide (b.2 < a.2))

theorem refinesFrequency_tieReversed : RefinesFrequency tieReversed := by
  refine ⟨fun a b h => by simp [tieReversed, h], fun a => by simp [tieReversed], fun a b c => ?_, fun a b h => ?_⟩
  · simp [tieReversed]; omega
  · have : a.1 ≠ b.1 ∨ a.2 ≠ b.2 := by
      by_contra hc; push Not at hc; exact h (Prod.ext hc.1 hc.2)
    simp [tieReversed]; omega

theorem witness_EveryTieOrderIsAsGood :
    RefinesFrequency tieReversed ∧ tieReversed ≠ Config.tie ∧ aabbbcc ≠ [] ∧
      ((tableFor tieReversed aabbbcc).map fun ct => decide (2 ≤ ct.length)) = some true := by
  refine ⟨refinesFrequency_tieReversed, fun h => ?_, by decide, by decide +kernel⟩
  have := congrFun (congrFun h (2, 0)) (2, 1)
  revert this; decide

theorem witness_EveryTieOrderRoundTrips : RefinesFrequency tieReversed ∧ aabbbcc ≠ [] :=
  ⟨refinesFrequency_tieReversed, by decide⟩

/-- Three Symbols, and the boundary of one Symbol. -/
theorem witness_EveryTieOrderBuildsAStrictTree :
    RefinesFrequency tieReversed ∧ ∀ l ∈ [[2, 3, 2], [4]], 1 ≤ (alphabet (freqFrom61 l)).length :=
  ⟨refinesFrequency_tieReversed, by decide +kernel⟩

theorem witness_CompressedLengthIsBounded : (textState [0x61#8]).trimmedInput ≠ [] := by decide

/-- Both clauses. -/
theorem witness_CheckRaisesWithoutATable :
    (heldState tableV1 []).tableValid = true ∧ (textState []).tableValid = false := by decide

/-- The bit index of `ExpandListsEveryBit`: the last bit of two bytes. -/
theorem witness_ExpandListsEveryBit : 15 < 8 * (textState [0x05#8, 0xA1#8]).ilen := by decide

/-- Both clauses at their boundary: eight bits, and seven. -/
theorem witness_HeaderIsTheFirstEightBits :
    8 ≤ (decoderState { DecoderWork.reset with dbits := bits8 0x05#8 }).dec.dbits.length ∧
    (decoderState { DecoderWork.reset with dbits := (bits8 0x05#8).drop 1 }).dec.dbits.length < 8 := by decide

/-- Both clauses at their boundary: `PAD` equal to the number of bits after the header, and one more. -/
theorem witness_StripDropsHeaderAndPadding :
    (let s := decoderState { DecoderWork.reset with dbits := bits8 0x08#8 ++ bits8 0xA1#8, pad := 8 }
     s.dec.pad ≤ s.dec.dbits.length - 8) ∧
    (let s := decoderState { DecoderWork.reset with dbits := bits8 0x09#8 ++ bits8 0xA1#8, pad := 9 }
     s.dec.dbits.length - 8 < s.dec.pad) := by decide

theorem tableV1_wf : CodeTable.wf tableV1 := by unfold CodeTable.wf; decide

theorem tableV1_prefixFree : CodeTable.prefixFree tableV1 := by unfold CodeTable.prefixFree; decide

/-- The table and a body that parses, `0 10`; with `parses_not` both clauses. -/
theorem witness_ScanDecodesExactlyWhatParses :
    let s := decoderState { DecoderWork.reset with body := [false, true, false] }
    s.rct = invert tableV1 ∧ CodeTable.wf tableV1 ∧ CodeTable.prefixFree tableV1 ∧ (∀ e ∈ tableV1, e.2 ≠ []) ∧
      CodeTable.Parses tableV1 [0x62#8, 0x61#8] s.dec.body :=
  ⟨rfl, tableV1_wf, tableV1_prefixFree, by decide, fun a ha => has_of_code? (by revert a; decide), by decide⟩

/-- The bits `1` alone are no sequence of codes of V1. -/
theorem witness_ScanDecodesExactlyWhatParses_not : ∀ x, ¬ CodeTable.Parses tableV1 x [true] := by
  rintro (_ | ⟨a, r⟩) ⟨h, e⟩
  · exact absurd e (by decide)
  · obtain ⟨c, hc⟩ := h a (by simp)
    simp only [tableV1, List.mem_cons, List.not_mem_nil, or_false, Prod.mk.injEq] at hc
    obtain ⟨rfl, -⟩ | ⟨rfl, -⟩ | ⟨rfl, -⟩ := hc <;>
      simp [CodeTable.bitsOf, CodeTable.code?, tableV1, List.lookup] at e

/-- Both ends of the loop, and both ways a bit can go. -/
theorem witness_ScanFollowsItsLoop :
    (scan (invert tableV1) [false, true, false] [] []).1 = [] ∧ (scan (invert tableV1) [true] [] []).1 ≠ [] ∧
    (invert tableV1).symbol? ([] ++ [false]) = some 0x62#8 ∧ (invert tableV1).symbol? ([] ++ [true]) = none := by decide

/-- One state for each case: no table; no header; the header one too large, and just fitting; a leftover; none. -/
theorem witness_DecompressErrorsInOrder :
    (textState []).tableValid = false ∧ (heldState tableV1 []).ilen = 0 ∧
    ((heldState tableV1 [0x09#8, 0xFF#8]).ibufByte 0).toNat > 8 * ((heldState tableV1 [0x09#8, 0xFF#8]).ilen - 1) ∧
    ¬ ((heldState tableV1 [0x08#8, 0xA1#8]).ibufByte 0).toNat > 8 * ((heldState tableV1 [0x08#8, 0xA1#8]).ilen - 1) ∧
    ends (exec .decompress (heldState tableV1 [0x05#8, 0xA1#8])) (fun t => t.err == .corruptPadding) = true ∧
    ends (exec .decompress (heldState tableV1 [0x05#8, 0xA1#8, 0xE0#8])) (fun t => t.err == .none && t.done) = true := by
  decide

/-- Two different states that agree on input and table. -/
theorem witness_DecompressDependsOnInputAndTableOnly :
    let s := heldState tableV1 [0x05#8, 0xA1#8, 0xE0#8]
    let s' := { s with done := true, olen := 9, obuf := [(4, 0x00#8)] }
    s.input = s'.input ∧ s.tableValid = s'.tableValid ∧ s.rct = s'.rct ∧ s ≠ s' ∧
      ends (exec .decompress s) (fun t => t.err == .none) = true := by
  refine ⟨by decide, rfl, rfl, fun h => absurd (congrArg State.done h) (by decide), by decide⟩

/-- D2 and D9: the same bits up to the padding, other padding bits. -/
theorem witness_PaddingBitsAreNotLookedAt :
    let s := heldState tableV1 [0x05#8, 0xA1#8, 0xE0#8]
    let s' := heldState tableV1 [0x05#8, 0xA1#8, 0xFF#8]
    s.tableValid = s'.tableValid ∧ s.rct = s'.rct ∧ s.ilen = s'.ilen ∧ s.ibufByte 0 = s'.ibufByte 0 ∧
      (s.input.flatMap bits8).take ((s.input.flatMap bits8).length - (s.ibufByte 0).toNat) =
        (s'.input.flatMap bits8).take ((s.input.flatMap bits8).length - (s.ibufByte 0).toNat) ∧
      s.input ≠ s'.input ∧ ends (exec .decompress s) (fun t => t.err == .none) = true := by decide

/-- D8, and the boundary D6 of a header alone. -/
theorem witness_EmptyBodySucceeds : ∀ d ∈ [[0x08#8, 0xA1#8], [0x00#8]],
    (heldState tableV1 d).tableValid = true ∧ 1 ≤ (heldState tableV1 d).ilen ∧
      ((heldState tableV1 d).ibufByte 0).toNat = 8 * ((heldState tableV1 d).ilen - 1) := by decide

/-- The table of V1 is legal. -/
theorem tableV1_legal : TableLegal tableV1 (invert tableV1) := by
  refine ⟨tableV1_wf, by decide, by decide, by unfold CodeTable.lengthsLegal; decide, tableV1_prefixFree, rfl,
    fun h => absurd h (by decide), fun _ f => ?_⟩
  have key : ∀ e ∈ tableV1, (e.2 = (List.range e.2.length).map f ↔
      e = if f 0 then (if f 1 then (0x63#8, [true, true]) else (0x61#8, [true, false])) else (0x62#8, [false])) := by
    intro e he
    simp only [tableV1, List.mem_cons, List.not_mem_nil, or_false] at he
    obtain rfl | rfl | rfl := he <;> cases h0 : f 0 <;> cases h1 : f 1 <;> simp [List.range_succ, h0, h1]
  refine ⟨if f 0 then (if f 1 then (0x63#8, [true, true]) else (0x61#8, [true, false])) else (0x62#8, [false]), ?_,
    fun e he => (key e he.1).1 he.2⟩
  have hm : (if f 0 then (if f 1 then (0x63#8, [true, true]) else (0x61#8, [true, false])) else (0x62#8, [false])) ∈
      tableV1 := by cases f 0 <;> cases f 1 <;> decide
  exact ⟨hm, (key _ hm).2 rfl⟩

/-- The table of V2 is legal. -/
theorem tableV2_legal : TableLegal tableV2 (invert tableV2) :=
  ⟨by unfold CodeTable.wf; decide, by decide, by decide, by unfold CodeTable.lengthsLegal; decide,
    by unfold CodeTable.prefixFree; decide, rfl, fun _ => by decide, fun h => absurd h (by decide)⟩

theorem witness_DecompressedLengthIsBounded :
    let s := heldState tableV2 [0x00#8, 0x00#8]
    TableLegal s.ct s.rct ∧ ends (exec .decompress s) (fun t => t.err == .none) = true :=
  ⟨tableV2_legal, by decide⟩

/-- Both clauses: two or more Symbols, and one. -/
theorem witness_LeftoverIsAProperPrefix :
    (TableLegal tableV1 (invert tableV1) ∧ (scan (invert tableV1) [true, false, true] [] []).1 ≠ [] ∧
      2 ≤ tableV1.length) ∧
    (TableLegal tableV2 (invert tableV2) ∧ (scan (invert tableV2) [false, true, false] [] []).1 ≠ [] ∧
      tableV2.length = 1) :=
  ⟨⟨tableV1_legal, by decide, by decide⟩, tableV2_legal, by decide, by decide⟩

/-- An error of each command. -/
theorem witness_ErrorsArePrecise :
    ends (exec .compress (heldState tableV1 [0x20#8])) (fun t => t.err != .none) = true ∧
    ends (exec .decompress (heldState tableV1 [])) (fun t => t.err != .none) = true := by decide +kernel

/-- `DONE` after a success, and an error. -/
theorem witness_DoneOrErrorAfterACommand :
    ends (exec .decompress (heldState tableV1 [0x00#8])) (fun t => t.done) = true ∧
    ends (exec .decompress (heldState tableV1 [])) (fun t => t.err != .none) = true := by decide

/-- The flag rises by a `COMPRESS` and falls by a reset. -/
theorem witness_TableValidChangesOnlyByCompressAndReset :
    (let s := { textState [0x61#8] with script := [.command 0x01#8] }
     s.phase = .idle ∧ s.tableValid = false ∧ ends (step s) (fun t => t.tableValid) = true) ∧
    (let s := { heldState tableV1 [] with script := [.access .reset] }
     s.phase = .idle ∧ s.tableValid = true ∧ ends (step s) (fun t => !t.tableValid) = true) := by decide +kernel

theorem witness_IoFailureIsNeverWritten :
    let s := { heldState tableV1 [] with script := [.command 0x02#8] }
    s.err ≠ .ioFailure ∧ ends (step s) (fun t => t.err == .corruptPadding) = true := by decide

/-- A state that holds a table, with a step. -/
theorem witness_EveryStepKeepsTheInvariant :
    let s := { heldState tableV1 [0x00#8] with done := true, script := [.command 0x02#8] }
    s.Inv ∧ ends (step s) (fun t => t.done) = true :=
  ⟨⟨⟨rfl, by decide, by decide, by decide⟩, fun _ => tableV1_legal⟩, by decide⟩

theorem witness_LegalScriptsNeverStop :
    Script.wellFormed (scriptState (roundTripActions aabbbcc)).script = true := by decide

theorem witness_RoundTripGivesTheTrimmedInput :
    (textState aabbbcc).ibuf.wf = true ∧ (textState aabbbcc).trimmedInput ≠ [] ∧
      (textState [0x20#8]).trimmedInput = [] := by decide

theorem witness_RoundTripThroughTheHostScript :
    let s := { heldState tableV2 aabbbcc with script := roundTripActions [0x62#8, 0x20#8] ++ [HostAction.access .reset] }
    s.phase = .idle ∧ s.ibuf.wf = true ∧ s.script = roundTripActions [0x62#8, 0x20#8] ++ [HostAction.access .reset] ∧
      [0x62#8, 0x20#8].rdropWhile isWhite ≠ [] := by decide

/-- V1 cut by its last byte (table T9). -/
theorem witness_TruncationIsNeverSilent :
    let s := textState aabbbcc
    let t := compress s
    let s' := { t with ibuf := Memory.ofBytes [0x05#8, 0xA1#8], ilen := 2 }
    s.trimmedInput ≠ [] ∧ exec .compress s = .next t ∧ s'.tableValid = true ∧ s'.rct = t.rct ∧
      s'.input = ((List.range t.olen).map t.obufByte).dropLast :=
  ⟨by decide, rfl, by decide +kernel, rfl, by decide +kernel⟩

end Sys2Proof.Tests
end

section
/-!
PROOF. The two granularities of a command agree (spec/00_scope.md R17): running the phases one step at a time visits
the very states that the command's chain of `andThen` passes through.
-/

namespace Sys2Proof.Machine

/-! ## Where each phase leaves `PHASE` (R30) -/

@[simp] theorem ePack_phase (s : State) : (ePack s).phase = .idle := rfl

theorem eBuild_phase (s : State) :
    (eBuild s).phase = .eCode ∨ (eBuild s).phase = .idle ∧ (eBuild s).err = .emptyAlphabet := by
  unfold eBuild
  split_ifs with h
  · exact .inr ⟨rfl, rfl⟩
  · exact .inl rfl

theorem dCheck_phase (s : State) :
    (dCheck s).phase = .dExpand ∨ (dCheck s).phase = .idle ∧ (dCheck s).err = .missingCodeTable := by
  unfold dCheck
  split_ifs with h
  · exact .inr ⟨rfl, rfl⟩
  · exact .inl rfl

theorem dHdr_phase (s : State) :
    (dHdr s).phase = .dStrip ∨ (dHdr s).phase = .idle ∧ (dHdr s).err = .corruptPadding := by
  unfold dHdr
  split_ifs with h
  · exact .inr ⟨rfl, rfl⟩
  · exact .inl rfl

theorem dStrip_phase (s : State) :
    (dStrip s).phase = .dScan ∨ (dStrip s).phase = .idle ∧ (dStrip s).err = .corruptPadding := by
  unfold dStrip
  split_ifs with h
  · exact .inr ⟨rfl, rfl⟩
  · exact .inl rfl

@[simp] theorem dScan_phase (s : State) : (dScan s).phase = .idle := by
  unfold dScan
  split_ifs with h
  · rfl
  · rfl

/-- `f` is the meaning of phase `p`, and hands over to phase `q` unless it ends the command. -/
structure IsPhase (p : Phase) (f : State → State) (q : Phase) : Prop where
  busy : p ≠ .idle
  exec_eq : ∀ s, exec (phaseInstr p) s = .next (f s)
  phase_eq : ∀ s, (f s).phase = q ∨ (f s).phase = .idle

theorem isPhase_eTrim : IsPhase .eTrim eTrim .eFreq := ⟨Phase.noConfusion, fun _ => rfl, fun _ => .inl rfl⟩

theorem isPhase_eFreq : IsPhase .eFreq eFreq .eBuild := ⟨Phase.noConfusion, fun _ => rfl, fun _ => .inl rfl⟩

theorem isPhase_eBuild : IsPhase .eBuild eBuild .eCode :=
  ⟨Phase.noConfusion, fun _ => rfl, fun s => (eBuild_phase s).imp_right And.left⟩

theorem isPhase_eCode : IsPhase .eCode eCode .ePack := ⟨Phase.noConfusion, fun _ => rfl, fun _ => .inl rfl⟩

theorem isPhase_ePack : IsPhase .ePack ePack .idle := ⟨Phase.noConfusion, fun _ => rfl, fun _ => .inl rfl⟩

theorem isPhase_dCheck : IsPhase .dCheck dCheck .dExpand :=
  ⟨Phase.noConfusion, fun _ => rfl, fun s => (dCheck_phase s).imp_right And.left⟩

theorem isPhase_dExpand : IsPhase .dExpand dExpand .dHdr := ⟨Phase.noConfusion, fun _ => rfl, fun _ => .inl rfl⟩

theorem isPhase_dHdr : IsPhase .dHdr dHdr .dStrip :=
  ⟨Phase.noConfusion, fun _ => rfl, fun s => (dHdr_phase s).imp_right And.left⟩

theorem isPhase_dStrip : IsPhase .dStrip dStrip .dScan :=
  ⟨Phase.noConfusion, fun _ => rfl, fun s => (dStrip_phase s).imp_right And.left⟩

theorem isPhase_dScan : IsPhase .dScan dScan .idle :=
  ⟨Phase.noConfusion, fun _ => rfl, fun s => .inl (dScan_phase s)⟩

/-! ## Running phase by phase (R17) -/

theorem core_run_succ {M : Host.Core} {s t : M.State} (h : M.step s = .next t) (n : Nat) :
    M.run (n + 1) s = M.run n t := by
  rw [Host.Core.run, h]

/-- Within `k` steps the block first becomes idle, in the state `t`. -/
def State.IdlesWithin (k : Nat) (s t : State) : Prop :=
  ∃ n ≤ k, Sys2Proof.core.run n s = .next t ∧ t.phase = .idle ∧
    ∀ m < n, ∃ u, Sys2Proof.core.run m s = .next u ∧ u.phase ≠ .idle

theorem idlesWithin_of_idle {s : State} (h : s.phase = .idle) : s.IdlesWithin 0 s :=
  ⟨0, le_rfl, rfl, h, fun _ hm => absurd hm (Nat.not_lt_zero _)⟩

theorem State.IdlesWithin.mono {j k : Nat} {s t : State} (h : s.IdlesWithin j t) (hjk : j ≤ k) :
    s.IdlesWithin k t := by
  obtain ⟨n, hn, hrun⟩ := h
  exact ⟨n, hn.trans hjk, hrun⟩

theorem State.IdlesWithin.of_step {k : Nat} {s s' t : State} (hs : s.phase ≠ .idle) (hstep : step s = .next s')
    (h : s'.IdlesWithin k t) : s.IdlesWithin (k + 1) t := by
  obtain ⟨n, hn, hrun, ht, hbusy⟩ := h
  refine ⟨n + 1, Nat.succ_le_succ hn, (core_run_succ (M := Sys2Proof.core) hstep n).trans hrun, ht, fun m hm => ?_⟩
  cases m with
  | zero => exact ⟨s, rfl, hs⟩
  | succ m =>
    obtain ⟨u, hu, hu'⟩ := hbusy m (Nat.lt_of_succ_lt_succ hm)
    exact ⟨u, (core_run_succ (M := Sys2Proof.core) hstep m).trans hu, hu'⟩

theorem IsPhase.andThen_phase {p q : Phase} {f : State → State} (hf : IsPhase p f q) (s : State) :
    (State.andThen f s).phase = q ∨ (State.andThen f s).phase = .idle := by
  by_cases hs : s.phase = .idle
  · rw [andThen_idle hs]; exact .inr hs
  · rw [andThen_busy hs]; exact hf.phase_eq s

/-- One link of a command's chain: `andThen f` is one step while phase `p` is on, and none once the command is over. -/
theorem IsPhase.idlesWithin {p q : Phase} {f : State → State} (hf : IsPhase p f q) {k : Nat} {s t : State}
    (hs : s.phase = p ∨ s.phase = .idle) (h : (State.andThen f s).IdlesWithin k t) : s.IdlesWithin (k + 1) t := by
  obtain hp | hidle := hs
  · have hbusy : s.phase ≠ .idle := hp ▸ hf.busy
    rw [andThen_busy hbusy] at h
    have hstep : step s = .next (f s) := by rw [step_busy hbusy, hp, hf.exec_eq]
    exact h.of_step hbusy hstep
  · rw [andThen_idle hidle] at h
    exact h.mono (Nat.le_succ k)

theorem compress_phase (s : State) : (compress s).phase = .idle := (isPhase_ePack.andThen_phase _).elim id id

theorem decompress_phase (s : State) : (decompress s).phase = .idle := (isPhase_dScan.andThen_phase _).elim id id

theorem compress_idlesWithin (s : State) : (s.start .eTrim).IdlesWithin 5 (compress s) :=
  isPhase_eTrim.idlesWithin (.inl rfl) <|
  isPhase_eFreq.idlesWithin (isPhase_eTrim.andThen_phase _) <|
  isPhase_eBuild.idlesWithin (isPhase_eFreq.andThen_phase _) <|
  isPhase_eCode.idlesWithin (isPhase_eBuild.andThen_phase _) <|
  isPhase_ePack.idlesWithin (isPhase_eCode.andThen_phase _) <|
  idlesWithin_of_idle (compress_phase s)

theorem decompress_idlesWithin (s : State) : (s.start .dCheck).IdlesWithin 5 (decompress s) :=
  isPhase_dCheck.idlesWithin (.inl rfl) <|
  isPhase_dExpand.idlesWithin (isPhase_dCheck.andThen_phase _) <|
  isPhase_dHdr.idlesWithin (isPhase_dExpand.andThen_phase _) <|
  isPhase_dStrip.idlesWithin (isPhase_dHdr.andThen_phase _) <|
  isPhase_dScan.idlesWithin (isPhase_dStrip.andThen_phase _) <|
  idlesWithin_of_idle (decompress_phase s)

/-- Settles O7: each link of a command's chain of phases is one step of the block, or none once the command is over. -/
theorem phaseStepsAgreeWithTheCommand : Obligations.PhaseStepsAgreeWithTheCommand := by
  intro s
  obtain ⟨n, hn, hrun, hidle, hbusy⟩ := compress_idlesWithin s
  obtain ⟨n', hn', hrun', hidle', hbusy'⟩ := decompress_idlesWithin s
  exact ⟨⟨n, hn, compress s, hrun, rfl, hidle, hbusy⟩, ⟨n', hn', decompress s, hrun', rfl, hidle', hbusy'⟩⟩

end Sys2Proof.Machine
end

section
/-!
PROOF. The table a tree gives is legal (spec/10_state.md R34), under every tie-break order (spec/40_encoder.md R124).
-/

namespace Sys2Proof.Machine

theorem length_alphabet_le (f : FreqTable) : (alphabet f).length ≤ 256 := by
  have hall : allSymbols.length = 256 := by unfold allSymbols; simp
  rw [alphabet_eq_filter, ← hall]
  exact List.length_filter_le _ _

/-- The path to a leaf of a tree that is no leaf itself takes at least one branch. -/
theorem HTree.entries_snd_ne_nil {t : HTree} (h2 : 2 ≤ t.syms.length) {e : Symbol × BitString}
    (h : e ∈ t.entries []) : e.2 ≠ [] := by
  cases t with
  | leaf f s => simp [HTree.syms] at h2
  | node f l r =>
    refine List.ne_nil_of_length_pos ?_
    rcases List.mem_append.1 h with h | h
    · exact (HTree.entries_length h).1.length_le
    · exact (HTree.entries_length h).1.length_le

theorem HTree.one_or_two_le_length_syms (t : HTree) : t.syms.length = 1 ∨ 2 ≤ t.syms.length := by
  have := t.syms_length_pos
  omega

/-- The entries `E_CODE` gives a tree's Symbols: `"0"` for one Symbol, the leaf paths for more (R118, R119). -/
def CodeTable.OfTree (ct : CodeTable) (t : HTree) : Prop :=
  ∀ e, e ∈ ct ↔ (t.syms.length = 1 ∧ e.1 ∈ t.syms ∧ e.2 = [false]) ∨ (2 ≤ t.syms.length ∧ e ∈ t.entries [])

namespace CodeTable.OfTree

variable {ct : CodeTable} {t : HTree}

theorem mem_of_one (h : ct.OfTree t) (h1 : t.syms.length = 1) {e : Symbol × BitString} :
    e ∈ ct ↔ e.1 ∈ t.syms ∧ e.2 = [false] := by
  rw [h e]; simp [h1]

theorem mem_of_two_le (h : ct.OfTree t) (h2 : 2 ≤ t.syms.length) {e : Symbol × BitString} :
    e ∈ ct ↔ e ∈ t.entries [] := by
  have h1 : t.syms.length ≠ 1 := by omega
  rw [h e]; simp [h1, h2]

theorem lengthsLegal (h : ct.OfTree t) (hl : ct.length = t.syms.length) : ct.lengthsLegal := by
  intro e he
  obtain h1 | h2 := t.one_or_two_le_length_syms
  · obtain ⟨-, hc⟩ := (h.mem_of_one h1).1 he
    simp [hc]
  · have he := (h.mem_of_two_le h2).1 he
    have hpos := List.length_pos_iff.2 (HTree.entries_snd_ne_nil h2 he)
    obtain ⟨-, hle⟩ := HTree.entries_length he
    rw [List.length_nil] at hle
    exact ⟨hpos, by omega⟩

theorem prefixFree (h : ct.OfTree t) : ct.prefixFree := by
  intro a ha b hb hne hpre
  obtain h1 | h2 := t.one_or_two_le_length_syms
  · obtain ⟨s, hs⟩ := List.length_eq_one_iff.1 h1
    have ha := ((h.mem_of_one h1).1 ha).1
    have hb := ((h.mem_of_one h1).1 hb).1
    rw [hs, List.mem_singleton] at ha hb
    exact hne (ha.trans hb.symm)
  · have := HTree.eq_of_entries_prefix ((h.mem_of_two_le h2).1 ha) ((h.mem_of_two_le h2).1 hb) hpre
    exact hne (congrArg Prod.fst this)

/-- The stream goes through a leaf, and of two leaves on it one path would begin the other. -/
theorem complete (h : ct.OfTree t) (h2 : 2 ≤ t.syms.length) : ct.complete := by
  intro f
  obtain ⟨e, he, hs⟩ := t.exists_entry_on_stream f (p := []) rfl
  refine ⟨e, ⟨(h.mem_of_two_le h2).2 he, hs⟩, ?_⟩
  rintro d ⟨hd, hds⟩
  have hd := (h.mem_of_two_le h2).1 hd
  obtain hle | hle := le_total d.2.length e.2.length
  · exact HTree.eq_of_entries_prefix hd he (prefix_total_of_stream hds hs hle)
  · exact (HTree.eq_of_entries_prefix he hd (prefix_total_of_stream hs hds hle)).symm

end CodeTable.OfTree

/-- The table of a nonempty text and its inverse are a legal pair (R34). -/
theorem tableLegal_of_tableFor {tie : Config.Tie} (ht : RefinesFrequency tie) {x : List Symbol} (hx : x ≠ [])
    {ct : CodeTable} (hct : tableFor tie x = some ct) : TableLegal ct (invert ct) := by
  obtain ⟨ct', t, hct', hwf, -, hperm, hall, -, hl⟩ := tableFor_spec ht hx
  obtain rfl : ct = ct' := Option.some.inj (hct.symm.trans hct')
  have hof : ct.OfTree t := hall
  have hne : ct ≠ [] := List.ne_nil_of_length_pos (hl ▸ t.syms_length_pos)
  have hle : ct.length ≤ 256 := by
    rw [hl, hperm.length_eq]
    exact length_alphabet_le _
  refine ⟨hwf, hne, hle, hof.lengthsLegal hl, hof.prefixFree, rfl, fun h1 e he => ?_, fun h2 => ?_⟩
  · exact ((hof.mem_of_one (hl ▸ h1)).1 he).2
  · exact hof.complete (hl ▸ h2)

end Sys2Proof.Machine
end

section
/-!
PROOF. The `STATUS` register (spec/10_state.md R26): its value in terms of its fields, and which combinations of the
fields read as one of the six legal values (spec/95_test_vectors.md ST8).
-/

namespace Sys2Proof.Machine

theorem ErrKind.code_lt (k : ErrKind) : k.code < 5 := by cases k <;> decide

section
variable (s : State)

theorem State.status_toNat : s.status.toNat = s.done.toNat + 2 * s.tableValid.toNat + 4 * s.err.code := by
  have hd := s.done.toNat_lt
  have hv := s.tableValid.toNat_lt
  have he := s.err.code_lt
  rw [State.status, BitVec.toNat_ofNat]
  exact Nat.mod_eq_of_lt (by omega)

theorem State.status_getLsbD_zero : s.status.getLsbD 0 = s.done := by
  rw [BitVec.getLsbD, s.status_toNat, Nat.testBit_zero, Bool.eq_iff_iff, decide_eq_true_iff, ← Bool.toNat_eq_one]
  have hd := s.done.toNat_lt
  omega

theorem State.status_getLsbD_one : s.status.getLsbD 1 = s.tableValid := by
  have hd := s.done.toNat_lt
  have hv := s.tableValid.toNat_lt
  rw [BitVec.getLsbD, s.status_toNat, Nat.testBit_succ, Nat.testBit_zero, Bool.eq_iff_iff, decide_eq_true_iff,
    ← Bool.toNat_eq_one]
  omega

theorem State.status_errBits : (s.status.extractLsb' 2 3).toNat = s.err.code := by
  have hd := s.done.toNat_lt
  have hv := s.tableValid.toNat_lt
  have he := s.err.code_lt
  rw [BitVec.extractLsb'_toNat, s.status_toNat, Nat.shiftRight_eq_div_pow]
  omega

theorem State.status_reservedBits : s.status.extractLsb' 5 3 = 0#3 := by
  have hd := s.done.toNat_lt
  have hv := s.tableValid.toNat_lt
  have he := s.err.code_lt
  refine BitVec.eq_of_toNat_eq ?_
  rw [BitVec.extractLsb'_toNat, s.status_toNat, Nat.shiftRight_eq_div_pow, BitVec.toNat_ofNat]
  omega

end

/-- Settles O10: `STATUS` is the sum of its fields, each in its own bits. -/
theorem statusRegisterReadsItsFields : Obligations.StatusRegisterReadsItsFields :=
  ⟨fun s => ⟨s.status_toNat, s.status_getLsbD_zero, s.status_getLsbD_one, s.status_errBits, s.status_reservedBits⟩,
    fun _ _ => ⟨rfl, rfl⟩, rfl⟩

end Sys2Proof.Machine
end

section
/-!
PROOF. The step and the phases (spec/10_state.md R25, R30), and the host's accesses (R42, R43, R56).
-/

namespace Sys2Proof.Machine

/-! ## The step and the phases -/

theorem step_of_fetch_word {s t : State} {w : CodeWord} {i : Instr} (hf : s.fetch = (.word w, t))
    (hd : decode w = some i) : step s = exec i t := by
  simp only [step, hf, hd]

/-- Settles O4: the laws of the step, one for each thing a step can fetch. -/
theorem stepRunsTheDecodedInstruction : Obligations.StepRunsTheDecodedInstruction := by
  refine ⟨?word, ?phase, ?command, ?quiet, ?access⟩
  case word => exact fun s t w i => step_of_fetch_word
  case phase => exact fun s => step_busy
  case command =>
    intro s c r i hidle hs hd
    rw [step_command hidle hs, hd]
  case quiet => exact fun s => step_quiet
  case access => exact fun s a r hidle hs => step_access hidle hs

/-- Settles O5: `IDLE` changes nothing. -/
theorem idleHoldsTheState : Obligations.IdleHoldsTheState := fun _ => rfl

/-- Settles O6: where each phase leaves `PHASE`. -/
theorem phasesFollowTheirPath : Obligations.PhasesFollowTheirPath := fun s =>
  ⟨⟨_, rfl, eTrim_phase s⟩, ⟨_, rfl, eFreq_phase s⟩, ⟨_, rfl, eBuild_phase s⟩, ⟨_, rfl, eCode_phase s⟩,
    ⟨_, rfl, ePack_phase s⟩, ⟨_, rfl, dCheck_phase s⟩, ⟨_, rfl, dExpand_phase s⟩, ⟨_, rfl, dHdr_phase s⟩,
    ⟨_, rfl, dStrip_phase s⟩, ⟨_, rfl, dScan_phase s⟩⟩

/-! ## The host's accesses -/

/-- Settles O8: the step takes the reset, and each field then has its value of R43. -/
theorem resetGivesTheStatedValues : Obligations.ResetGivesTheStatedValues := by
  intro s r hidle hs
  exact ⟨_, step_access hidle hs, rfl, rfl, rfl, rfl, rfl, rfl, rfl, fun _ => rfl, fun _ => rfl, rfl⟩

theorem State.ibufByte_of_read? {s : State} {i : Nat} {b : Byte} (h : s.ibuf.read? i = some b) :
    s.ibufByte i = b := by
  rw [State.ibufByte, h, Option.getD_some]

theorem State.obufByte_of_read? {s : State} {i : Nat} {b : Byte} (h : s.obuf.read? i = some b) :
    s.obufByte i = b := by
  rw [State.obufByte, h, Option.getD_some]

theorem State.olenRead_of_noError {s : State} (h : s.err = .none) : s.olenRead = s.olen := if_pos h

theorem State.resultRead_of_resultIs {s : State} (h : s.err = .none) {bs : List Byte} (hr : s.resultIs bs) :
    s.resultRead = bs := by
  obtain ⟨hlen, hobuf⟩ := hr
  rw [State.resultRead, State.olenRead_of_noError h, hlen]
  refine List.ext_getElem (by simp) fun i _ hi => ?_
  rw [List.getElem_map, List.getElem_range]
  refine State.obufByte_of_read? ?_
  rw [hobuf, Memory.read?_ofBytes, List.getElem?_eq_getElem hi]

/-- Settles O11: what each read returns, and the frame every read keeps. -/
theorem hostAccessRights : Obligations.HostAccessRights := by
  intro s i n b
  refine ⟨rfl, rfl, rfl, rfl, rfl, ?olen, ?obuf, ?ibuf, ?result, ?frame⟩
  case olen =>
    intro herr
    show s.seen ++ [Observation.olen s.olenRead] = _
    rw [State.olenRead_of_noError herr]
  case obuf =>
    intro hb
    show s.seen ++ [Observation.obuf i (s.obufByte i)] = _
    rw [State.obufByte_of_read? hb]
  case ibuf =>
    intro hb
    show s.seen ++ [Observation.ibuf i (s.ibufByte i)] = _
    rw [State.ibufByte_of_read? hb]
  case result =>
    intro bs herr hr
    show s.seen ++ [Observation.result s.status s.olenRead s.resultRead] = _
    rw [State.resultRead_of_resultIs herr hr, State.olenRead_of_noError herr, hr.1]
  case frame =>
    intro a ha
    fin_cases ha
    all_goals rfl

/-- What a write to `IBUF` does to what the block reads there: its own byte, and no other (log entry 5). -/
theorem ibufByte_writeIbuf (s : State) (i j : Nat) (b : Byte) :
    (hostAccess (.writeIbuf i b) s).ibufByte j = if j = i then b else s.ibufByte j := by
  show ((s.ibuf.write i b).read? j).getD (Config.freeIbufByte s.draws j) = _
  rw [Memory.read?_write]
  split_ifs with h
  · rfl
  · rfl

/-- Settles O12: a read after a write to `IBUF`, and what the two writes leave unchanged. -/
theorem hostWritesStoreTheirValue : Obligations.HostWritesStoreTheirValue := by
  intro s i n b hwf
  have hself : (hostAccess (.writeIbuf i b) s).ibufByte i = b := by rw [ibufByte_writeIbuf, if_pos rfl]
  refine ⟨⟨rfl, Memory.wf_write hwf i b, hself, ?read, fun j hj => ⟨?listed, ?byte⟩⟩, rfl⟩
  case read =>
    show s.seen ++ [Observation.ibuf i ((hostAccess (.writeIbuf i b) s).ibufByte i)] = _
    rw [hself]
  case listed =>
    show (s.ibuf.write i b).read? j = _
    rw [Memory.read?_write, if_neg hj]
  case byte => rw [ibufByte_writeIbuf, if_neg hj]

end Sys2Proof.Machine
end

section
/-!
PROOF. What a whole command does to the flags and the table (spec/10_state.md R27, R29), and the invariant of the block
between commands (R30, R34, spec/95_test_vectors.md ST8).
-/

namespace Sys2Proof.Machine

/-! ## The outcome of a command -/

/-- How a `DECOMPRESS` can end: with one of its two errors, or with the commit; which of them the flag `TABLE_VALID`
allows (R142, R167). -/
theorem decompress_outcome (s : State) : ∃ u, Inside s u ∧
    ((s.tableValid = false ∧ decompress s = u.raise .missingCodeTable) ∨
    (s.tableValid = true ∧ decompress s = u.raise .corruptPadding) ∨
    (s.tableValid = true ∧ decompress s = commitDecompress u)) := by
  obtain ⟨u, hu, h⟩ := decompress_cases s
  refine ⟨u, hu, ?_⟩
  rcases h with ⟨hv, e⟩ | ⟨hv, -, e⟩ | ⟨hv, -, -, e⟩ | ⟨hv, -, -, -, e⟩ | ⟨hv, -, -, -, -, e⟩
  · exact .inl ⟨hv, e⟩
  · exact .inr (.inl ⟨hv, e⟩)
  · exact .inr (.inl ⟨hv, e⟩)
  · exact .inr (.inl ⟨hv, e⟩)
  · exact .inr (.inr ⟨hv, e⟩)

theorem compress_done_iff (s : State) : (compress s).done = true ↔ (compress s).err = .none := by
  rcases compress_cases s with ⟨-, u, hu, e⟩ | ⟨-, u, ct, -, hu, -, -, -, e⟩
  · simp [e, hu.done]
  · have herr : u.err = .none := hu.err
    simp [e, herr]

theorem decompress_done_iff (s : State) : (decompress s).done = true ↔ (decompress s).err = .none := by
  obtain ⟨u, hu, ⟨-, e⟩ | ⟨-, e⟩ | ⟨-, e⟩⟩ := decompress_outcome s
  · simp [e, hu.done]
  · simp [e, hu.done]
  · simp [e, hu.err]

/-- Settles O46: a command raises with `DONE` cleared, or commits with `ERR` cleared. -/
theorem doneOrErrorAfterACommand : Obligations.DoneOrErrorAfterACommand := by
  refine ⟨fun s i hi => ?_, fun s => ⟨rfl, rfl⟩⟩
  simp only [List.mem_cons, List.not_mem_nil, or_false] at hi
  obtain rfl | rfl := hi
  · exact ⟨_, rfl, compress_done_iff s⟩
  · exact ⟨_, rfl, decompress_done_iff s⟩

/-! ## `TABLE_VALID` (R29) -/

/-- A `COMPRESS` leaves `TABLE_VALID` as it is, or sets it and succeeds. -/
theorem compress_tableValid (s : State) : (compress s).tableValid = s.tableValid ∨
    ((compress s).tableValid = true ∧ (compress s).done = true ∧ (compress s).err = .none) := by
  rcases compress_cases s with ⟨-, u, hu, e⟩ | ⟨-, u, ct, -, hu, -, -, -, e⟩
  · rw [e]; exact .inl hu.tableValid
  · rw [e]; exact .inr ⟨rfl, rfl, hu.err⟩

theorem decompress_tableValid (s : State) : (decompress s).tableValid = s.tableValid := by
  obtain ⟨u, hu, ⟨-, e⟩ | ⟨-, e⟩ | ⟨-, e⟩⟩ := decompress_outcome s
  all_goals rw [e]; exact hu.tableValid

/-- No host access but reset touches the flags, the table, `PHASE` or the result: only `IBUF`, `ILEN` and the model's
own fields change (R42). -/
theorem hostAccess_frame {a : HostAccess} (h : a ≠ .reset) (s : State) :
    hostAccess a s = { s with ibuf := (hostAccess a s).ibuf, ilen := (hostAccess a s).ilen,
                              seen := (hostAccess a s).seen, draws := (hostAccess a s).draws } := by
  cases a with
  | reset => exact absurd rfl h
  | _ => rfl

/-- What a step of a block between commands does to `TABLE_VALID`: nothing, unless it is a `COMPRESS` that succeeds or a
reset. -/
theorem step_tableValid_cases {s t : State} (hidle : s.phase = .idle) (hstep : step s = .next t) :
    t.tableValid = s.tableValid ∨
    ((∃ r, s.script = .command 0x01#8 :: r) ∧ t.tableValid = true ∧ t.done = true ∧ t.err = .none) ∨
    ((∃ r, s.script = .access .reset :: r) ∧ t.tableValid = false) := by
  rcases step_idle_cases hidle with ⟨-, e⟩ | ⟨r, hs, e⟩ | ⟨r, -, e⟩ | ⟨a, r, hs, e⟩ | ⟨c, r, -, -, -, e⟩
  all_goals rw [e] at hstep; cases hstep
  · exact .inl rfl
  · exact (compress_tableValid { s with script := r }).imp_right fun h => .inl ⟨⟨r, hs⟩, h⟩
  · exact .inl (decompress_tableValid { s with script := r })
  · by_cases ha : a = .reset
    · subst ha
      exact .inr (.inr ⟨⟨r, hs⟩, rfl⟩)
    · rw [hostAccess_frame ha]
      exact .inl rfl

/-- Settles O47: a step that changes `TABLE_VALID` is one of the two that write it. -/
theorem tableValidChangesOnlyByCompressAndReset : Obligations.TableValidChangesOnlyByCompressAndReset := by
  intro s t hidle hstep
  rcases step_tableValid_cases hidle hstep with hsame | ⟨hscript, hv, hdone, herr⟩ | ⟨hscript, hv⟩
  · simp +contextual [hsame]
  · simp [hv, hscript, hdone, herr]
  · simp [hv, hscript]

/-! ## The invariant between commands -/

/-- The value of `STATUS` is determined by the three fields. -/
theorem State.status_mem_legalStatus {s : State} {d v : Bool} {k : ErrKind} (hd : s.done = d) (hv : s.tableValid = v)
    (hk : s.err = k) (h : BitVec.ofNat 8 (d.toNat + 2 * v.toNat + 4 * k.code) ∈ legalStatus) :
    s.status ∈ legalStatus := by
  rw [State.status, hd, hv, hk]; exact h

/-- A `raise` inside a command keeps the invariant, where the kind can occur with the value of `TABLE_VALID`. -/
theorem Inside.inv_raise {s u : State} (hu : Inside s u) (hs : s.Inv) {k : ErrKind}
    (hk : BitVec.ofNat 8 (2 * s.tableValid.toNat + 4 * k.code) ∈ legalStatus) : (u.raise k).Inv := by
  obtain ⟨⟨-, -, hibuf, -⟩, htable⟩ := hs
  refine ⟨⟨rfl, State.status_mem_legalStatus hu.done hu.tableValid rfl (by simpa using hk), ?_, rfl⟩, fun hv => ?_⟩
  · exact hu.ibuf.symm ▸ hibuf
  · have := htable (hu.tableValid.symm.trans hv)
    rwa [← hu.ct, ← hu.rct] at this

theorem inv_compress {s : State} (hs : s.Inv) : (compress s).Inv := by
  rcases compress_cases s with ⟨-, u, hu, e⟩ | ⟨hx, u, ct, htab, hu, hct, hrct, hres, e⟩
  · rw [e]
    exact hu.inv_raise hs (by cases s.tableValid <;> decide)
  · obtain ⟨⟨-, -, hibuf, -⟩, -⟩ := hs
    have hw : u.ibuf = s.ibuf := hu.ibuf
    rw [e]
    refine ⟨⟨rfl, State.status_mem_legalStatus (d := true) (v := true) rfl rfl hu.err (by decide), ?_, ?_⟩, fun _ => ?_⟩
    · exact hw.symm ▸ hibuf
    · exact hres.2.symm ▸ Memory.wf_ofBytes _
    · rw [commitCompress_ct, commitCompress_rct, hct, hrct]
      exact tableLegal_of_tableFor refinesFrequency_tie hx htab

theorem inv_decompress {s : State} (hs : s.Inv) : (decompress s).Inv := by
  obtain ⟨u, hu, ⟨hv, e⟩ | ⟨hv, e⟩ | ⟨hv, e⟩⟩ := decompress_outcome s
  · rw [e]
    exact hu.inv_raise hs (by rw [hv]; decide)
  · rw [e]
    exact hu.inv_raise hs (by rw [hv]; decide)
  · obtain ⟨⟨-, -, hibuf, -⟩, htable⟩ := hs
    rw [e]
    refine ⟨⟨rfl, ?_, ?_, Memory.wf_ofBytes _⟩, fun _ => ?_⟩
    · exact State.status_mem_legalStatus (d := true) rfl (hu.tableValid.trans hv) hu.err (by decide)
    · exact hu.ibuf.symm ▸ hibuf
    · have := htable hv
      rwa [← hu.ct, ← hu.rct] at this

theorem inv_reset : State.reset.Inv := ⟨⟨rfl, by decide, wf_reset⟩, nofun⟩

theorem inv_hostAccess (a : HostAccess) {s : State} (hs : s.Inv) : (hostAccess a s).Inv := by
  by_cases ha : a = .reset
  · exact ha ▸ inv_reset
  · obtain ⟨⟨hidle, hstatus, hibuf, hobuf⟩, htable⟩ := hs
    have hwf := wf_hostAccess a hibuf hobuf
    rw [hostAccess_frame ha] at hwf ⊢
    exact ⟨⟨hidle, hstatus, hwf⟩, htable⟩

/-- Settles O49: each thing a step between commands can do keeps the invariant. -/
theorem everyStepKeepsTheInvariant : Obligations.EveryStepKeepsTheInvariant := by
  intro s t hs hstep
  obtain ⟨hidle, -⟩ := hs.1
  rcases step_idle_cases hidle with ⟨-, e⟩ | ⟨r, -, e⟩ | ⟨r, -, e⟩ | ⟨a, r, -, e⟩ | ⟨c, r, -, -, -, e⟩
  all_goals rw [e] at hstep; cases hstep
  · exact hs
  · exact inv_compress (s := { s with script := r }) hs
  · exact inv_decompress (s := { s with script := r }) hs
  · exact inv_hostAccess a (s := { s with script := r }) hs

/-- Settles O50: no flag is set, no byte is listed and no table is held after reset. -/
theorem resetMeetsTheInvariant : Obligations.ResetMeetsTheInvariant := ⟨inv_reset, rfl, rfl⟩

end Sys2Proof.Machine
end

section
/-!
PROOF. The command words and phase codes (spec/30_encoding.md R71, R73, R74), and `LOAD` as single host writes (R90).
-/

namespace Sys2Proof.Machine

/-! ## The decoder's tables -/

/-- In a table whose masks keep every bit, the row found for a word has that very word as its match. -/
theorem row_of_matchRow {w : Nat} {rows : List (BitVec w × BitVec w × Instr)} {x : BitVec w} {i : Instr}
    (hmask : ∀ r ∈ rows, r.1 = BitVec.allOnes w) (h : matchRow rows x = some i) : ∃ r ∈ rows, r.2 = (x, i) := by
  obtain ⟨r, hfind, rfl⟩ := Option.map_eq_some_iff.1 h
  have hr : r ∈ rows := List.mem_of_find?_eq_some hfind
  have hx : x = r.2.1 := by simpa [hmask r hr] using List.find?_some hfind
  exact ⟨r, hr, hx ▸ rfl⟩

/-- Every row of R71 matches all eight bits, and its match is the word of its instruction. -/
theorem commandRows_exact : ∀ r ∈ commandRows, r.1 = BitVec.allOnes 8 ∧ .cmd8 r.2.1 = encode r.2.2 := by decide

/-- Every row of R74 matches all four bits, and its match is the code of its phase. -/
theorem phaseRows_exact : ∀ r ∈ phaseRows, r.1 = BitVec.allOnes 4 ∧ .ph4 r.2.1 = encode r.2.2 := by decide

theorem eq_encode_of_decode {w : CodeWord} {i : Instr} (h : decode w = some i) : w = encode i := by
  cases w with
  | cmd8 op =>
    obtain ⟨⟨_, _, _⟩, hr, ⟨⟩⟩ := row_of_matchRow (fun r hr => (commandRows_exact r hr).1) h
    exact (commandRows_exact _ hr).2
  | ph4 ph =>
    obtain ⟨⟨_, _, _⟩, hr, ⟨⟩⟩ := row_of_matchRow (fun r hr => (phaseRows_exact r hr).1) h
    exact (phaseRows_exact _ hr).2

/-- Settles O1: the row a word selects is that of its instruction, and every instruction has its row. -/
theorem decodeAgreesWithEncode : Obligations.DecodeAgreesWithEncode := fun _ i =>
  ⟨eq_encode_of_decode, fun h => h ▸ decode_encode i⟩

/-- Settles O2: each word written out is the encoding of its instruction. -/
theorem writtenOutWordsDecode : Obligations.WrittenOutWordsDecode :=
  ⟨decode_encode .compress, decode_encode .decompress, decode_encode .idle, decode_encode .eTrim, decode_encode .eFreq,
    decode_encode .eBuild, decode_encode .eCode, decode_encode .ePack, decode_encode .dCheck, decode_encode .dExpand,
    decode_encode .dHdr, decode_encode .dStrip, decode_encode .dScan⟩

/-- Settles O3: the decoder has no row for the word, so the step refuses it. -/
theorem reservedCommandWordsAreRefused : Obligations.ReservedCommandWordsAreRefused := by
  intro s c r hidle hs h1 h2
  have hreserved : decode (.cmd8 c) = none := by rw [decode_cmd8, if_neg h1, if_neg h2]
  rw [step_command hidle hs, hreserved]

/-! ## `LOAD` (R90) -/

theorem core_run_access {s : State} {a : HostAccess} {r : List HostAction} (hidle : s.phase = .idle)
    (hs : s.script = .access a :: r) (n : Nat) :
    Sys2Proof.core.run (n + 1) s = Sys2Proof.core.run n (hostAccess a { s with script := r }) :=
  core_run_succ (M := Sys2Proof.core) (step_access hidle hs) n

/-- Host writes to `IBUF` from index `k` on, one a step, are one write of all the bytes. -/
theorem core_run_writeBytes (bs : List Byte) {k : Nat} {s : State} {r : List HostAction} (hidle : s.phase = .idle)
    (hs : s.script = ((bs.zipIdx k).map fun e => .access (.writeIbuf e.2 e.1)) ++ r) (n : Nat) :
    Sys2Proof.core.run (bs.length + n) s =
      Sys2Proof.core.run n ({ s with ibuf := s.ibuf.writeBytes k bs, script := r } : State) := by
  induction bs generalizing k s with
  | nil => rw [List.length_nil, Nat.zero_add, ← show s.script = r from hs]; rfl
  | cons b bs ih =>
    rw [List.length_cons, Nat.add_right_comm]
    exact (core_run_access hidle hs _).trans (ih hidle rfl)

/-- The single host writes of `LOAD` are the operation `LOAD`. -/
theorem core_run_loadActions {bs : List Byte} {s : State} {r : List HostAction} (hidle : s.phase = .idle)
    (hs : s.script = loadActions bs ++ r) (n : Nat) :
    Sys2Proof.core.run (bs.length + 1 + n) s = Sys2Proof.core.run n (({ s with script := r } : State).load bs) := by
  rw [loadActions, List.append_assoc] at hs
  rw [Nat.add_assoc, core_run_writeBytes bs hidle hs, Nat.add_comm 1]
  exact core_run_access (a := .writeIlen bs.length) (by exact hidle) (by rfl) n

theorem State.input_load (s : State) (bs : List Byte) : (s.load bs).input = bs := by
  refine List.ext_getElem? fun i => ?_
  by_cases hi : i < bs.length
  · have hread : (s.load bs).ibuf.read? i = some bs[i] := by
      simp [Memory.read?_writeBytes, hi]
    rw [State.input, State.load_ilen, getElem?_inputBytes _ hi, State.ibufByte_of_read? hread,
      List.getElem?_eq_getElem hi]
  · rw [List.getElem?_eq_none (by simpa using hi), List.getElem?_eq_none (by simpa using hi)]

/-- Settles O13: the steps amount to the operation `LOAD`, which writes the input's bytes and `ILEN` alone. -/
theorem loadMakesTheInput : Obligations.LoadMakesTheInput := by
  intro s bs r hidle _ hs
  refine ⟨_, core_run_loadActions hidle hs 0, State.input_load _ bs, rfl, fun j hj => ?_⟩
  rw [State.load_ibuf, Memory.read?_writeBytes, if_neg (by omega)]

end Sys2Proof.Machine
end

section
/-!
PROOF. The encoder's phases one by one: trimming (spec/40_encoder.md R103), counting (R106, R107), the raise of
`E_BUILD` (R110) and packing (R125 to R129).
-/

namespace Sys2Proof.Machine

/-! ## Trimming (R103) -/

theorem isWhite_iff (b : Symbol) :
    isWhite b = true ↔ b ∈ [0x09#8, 0x0A#8, 0x0B#8, 0x0C#8, 0x0D#8, 0x20#8] := List.contains_iff_mem

/-- Settles O14: the byte before the trimmed length is not white, and every byte from there on is. -/
theorem trimTakesTheLargestLength : Obligations.TrimTakesTheLargestLength := by
  intro s
  obtain ⟨hlast, hwhite⟩ := trimLen_spec s.ibufByte s.ilen
  refine ⟨eTrim s, rfl, rfl, trimLen_le _ _, ?ok, fun n hn hok => ?largest⟩
  case ok =>
    refine hlast.imp_right fun h => ?_
    rw [← isWhite_iff]
    exact Bool.eq_false_iff.1 h
  case largest =>
    by_contra hlt
    have hlt : trimLen s.ibufByte s.ilen < n := Nat.lt_of_not_le hlt
    have := hwhite (n - 1) (by omega) (by omega)
    exact hok.elim (by omega) fun h => h ((isWhite_iff _).1 this)

/-- The trimmed input drops the white Symbols at the end of the input, so it depends on the input alone. -/
theorem trimmedInput_eq_rdropWhile (s : State) : s.trimmedInput = s.input.rdropWhile isWhite := by
  have key (n : Nat) : s.inputBytes (trimLen s.ibufByte n) = (s.inputBytes n).rdropWhile isWhite := by
    induction n with
    | zero => rfl
    | succ n ih =>
      have hsnoc : s.inputBytes (n + 1) = s.inputBytes n ++ [s.ibufByte n] := by
        simp [State.inputBytes, List.range_succ]
      rw [hsnoc, List.rdropWhile_concat, trimLen]
      split_ifs with h
      · exact ih
      · exact hsnoc
  exact key s.ilen

/-! ## Counting (R106, R107) -/

theorem toFinset_alphabet (f : FreqTable) :
    (alphabet f).toFinset = Finset.univ.filter fun a : Symbol => 0 < f.count a := by
  ext a; simp

theorem toFinset_alphabet_countSymbols (x : List Symbol) : (alphabet (countSymbols x)).toFinset = x.toFinset := by
  ext a; simp [List.count_pos_iff]

theorem length_alphabet (f : FreqTable) :
    (alphabet f).length = (Finset.univ.filter fun a : Symbol => 0 < f.count a).card := by
  rw [← toFinset_alphabet, List.toFinset_card_of_nodup (alphabet_nodup f)]

theorem length_alphabet_countSymbols (x : List Symbol) : (alphabet (countSymbols x)).length = x.toFinset.card := by
  rw [← toFinset_alphabet_countSymbols, List.toFinset_card_of_nodup (alphabet_nodup _)]

/-- Only the Symbols that occur count. -/
theorem sum_count_eq_sum_alphabet (f : FreqTable) : ∑ a : Symbol, f.count a = ((alphabet f).map f.count).sum := by
  rw [← List.sum_toFinset _ (alphabet_nodup f), toFinset_alphabet, Finset.sum_filter]
  refine Finset.sum_congr rfl fun a _ => ?_
  split_ifs with h
  · rfl
  · exact Nat.eq_zero_of_not_pos h

theorem sum_count_countSymbols (x : List Symbol) : ∑ a : Symbol, (countSymbols x).count a = x.length := by
  simp only [count_countSymbols]
  rw [← List.sum_toFinset_count_eq_length]
  refine (Finset.sum_subset (Finset.subset_univ x.toFinset) fun a _ ha => ?_).symm
  simpa [List.count_eq_zero] using ha

@[simp] theorem length_trimmed (s : State) : s.trimmed.length = s.enc.tlen := length_inputBytes s _

/-- Settles O15: `FREQ` counts in the trimmed text, and the alphabet lists each Symbol with a counter above 0 once. -/
theorem freqCountsEverySymbol : Obligations.FreqCountsEverySymbol := by
  refine fun s => ⟨eFreq s, rfl, rfl, fun a => ?_, length_alphabet _⟩
  show (countSymbols s.trimmed).count a = _
  rw [count_countSymbols, State.trimmed, State.inputBytes, List.count, List.countP_map, List.countP_eq_length_filter]
  rfl

/-- Settles O16: each of the `TLEN` Symbols is counted once. -/
theorem freqSumsToTheTrimmedLength : Obligations.FreqSumsToTheTrimmedLength := by
  intro s
  have hn : (eFreq s).enc.n = (alphabet (countSymbols s.trimmed)).length := rfl
  refine ⟨eFreq s, rfl, ?sum, ?zero, le_min ?tlen (length_alphabet_le _)⟩
  case sum => exact (sum_count_countSymbols s.trimmed).trans (length_trimmed s)
  case zero => rw [hn, List.length_eq_zero_iff, alphabet_countSymbols_eq_nil, ← List.length_eq_zero_iff, length_trimmed]
  case tlen =>
    rw [hn, length_alphabet_countSymbols, ← length_trimmed s]
    exact List.toFinset_card_le _

/-- Settles O17: with `N = 0` the phase is a raise and nothing else. -/
theorem buildRaisesOnEmptyAlphabet : Obligations.BuildRaisesOnEmptyAlphabet := by
  intro s hn
  have hraise : eBuild s = s.raise .emptyAlphabet := if_pos hn
  exact ⟨s.raise .emptyAlphabet, congrArg Host.Outcome.next hraise,
    rfl, rfl, rfl, fun _ => rfl, rfl, rfl, rfl, rfl, rfl, rfl, rfl⟩

/-! ## Packing (R125 to R129) -/

/-- Settles O22: the padding is less than a byte and completes the last one. -/
theorem padAmountAlignsWithoutAnExtraByte : Obligations.PadAmountAlignsWithoutAnExtraByte := by
  refine fun l => ⟨Nat.le_of_lt_succ (padAmount_lt l), padAmount_aligns l, fun h => ?_⟩
  rw [padAmount, h]

/-- Where every Symbol has a code, `E_PACK` takes the table's codes. -/
theorem flatMap_codeOf {s : State} (h : ∀ a ∈ s.trimmed, s.ct.has a) :
    s.trimmed.flatMap s.codeOf = s.ct.bitsOf s.trimmed := by
  refine List.flatMap_congr fun a ha => ?_
  obtain ⟨c, hc⟩ := h a ha
  obtain ⟨d, hd⟩ : ∃ d, s.ct.code? a = some d := by
    refine Option.ne_none_iff_exists'.1 fun hnone => ?_
    simpa using List.lookup_eq_none_iff.1 hnone (a, c) hc
  rw [State.codeOf, hd]
  rfl

/-- The stream of a text's bits fills whole bytes (R126, R127). -/
theorem length_toBytes_streamOf (bits : BitString) :
    8 * (toBytes (streamOf (padAmount bits.length) bits)).length = 8 + bits.length + padAmount bits.length := by
  have := padAmount_aligns bits.length
  rw [length_toBytes, length_streamOf]
  omega

/-- The first byte of a stream is its header. -/
theorem toBytes_streamOf_zero (pad : Nat) (bits : BitString) :
    (toBytes (streamOf pad bits))[0]? = some (BitVec.ofNat 8 pad) := by
  rw [streamOf, List.append_assoc, toBytes_append (length_bits8 _), val_bits8, List.getElem?_cons_zero,
    BitVec.ofNat_toNat, BitVec.setWidth_eq]

/-- What outlives `E_PACK` unchanged (R129): all but the result, `DONE`, `TABLE_VALID`, `PHASE` and the
working state. -/
theorem ePack_frame (s : State) :
    (ePack s).err = s.err ∧ (ePack s).ibuf = s.ibuf ∧ (ePack s).ilen = s.ilen ∧ (ePack s).ct = s.ct ∧
      (ePack s).rct = s.rct ∧ (ePack s).script = s.script ∧ (ePack s).seen = s.seen := by
  simp [ePack]

/-- Settles O23: the bytes written are those of the stream, so the stream's bits are theirs. -/
theorem packLaysOutTheStream : Obligations.PackLaysOutTheStream := by
  intro s hcodes
  obtain ⟨herr, hibuf, hilen, hct, hrct, hscript, hseen⟩ := ePack_frame s
  obtain ⟨holen, hobuf⟩ := ePack_result s
  rw [flatMap_codeOf hcodes] at holen hobuf
  have hlen := length_toBytes_streamOf (s.ct.bitsOf s.trimmed)
  refine ⟨ePack s, rfl, rfl, rfl, herr, rfl, hibuf, hilen, hct, hrct, hscript, hseen, ?olen, fun j => ?domain, ?header,
    fun k _ => ?bit⟩
  case olen => rw [holen, hlen]
  case domain => rw [hobuf, holen, Memory.read?_ofBytes, isSome_getElem?]
  case header => rw [hobuf, Memory.read?_ofBytes, toBytes_streamOf_zero]
  case bit =>
    rw [hobuf, Memory.read?_ofBytes, ← getElem?_flatMap_bits8,
      flatMap_bits8_toBytes _ _ ((length_streamOf _ _).trans hlen.symm)]
    rfl

end Sys2Proof.Machine
end

section
/-!
PROOF. The order of the merges (spec/40_encoder.md R111 to R115): which two nodes each internal node joins, under any
tie-break order, and that the tree so made is strict.
-/

namespace Sys2Proof.Machine

/-! ## What a new node leaves unchanged -/

section
variable {node more : List TreeNode} {i j m : Nat}

theorem nodeFreq_append (h : i < node.length) : nodeFreq (node ++ more) i = nodeFreq node i := by
  rw [nodeFreq, List.getElem?_append_left h, nodeFreq]

theorem nodeKey_append (h : i < node.length) : nodeKey (node ++ more) i = nodeKey node i := by
  rw [nodeKey, nodeFreq_append h, nodeKey]

theorem hasParent_append (h : m ≤ node.length) : hasParent (node ++ more) m j ↔ hasParent node m j := by
  refine exists_congr fun i => exists_congr fun _ => exists_congr fun _ => exists_congr fun _ =>
    and_congr_right fun hi => ?_
  rw [List.getElem?_append_left (hi.trans_le h)]

theorem inQueue_append (h : m ≤ node.length) : inQueue (node ++ more) m i ↔ inQueue node m i :=
  and_congr_right fun _ => not_congr (hasParent_append h)

/-- The children of node `m` are the only nodes that get a parent when it is created. -/
theorem hasParent_succ {f l r : Nat} (h : node[m]? = some (TreeNode.internal f l r)) :
    hasParent node (m + 1) j ↔ hasParent node m j ∨ j = l ∨ j = r := by
  constructor
  · rintro ⟨i, f', l', r', hi, hnode, hj⟩
    obtain hi | rfl := Nat.lt_succ_iff_lt_or_eq.1 hi
    · exact .inl ⟨i, f', l', r', hi, hnode, hj⟩
    · rw [h] at hnode
      cases hnode
      exact .inr hj
  · rintro (⟨i, f', l', r', hi, hnode, hj⟩ | hj)
    · exact ⟨i, f', l', r', hi.trans (Nat.lt_succ_self m), hnode, hj⟩
    · exact ⟨m, f, l, r, Nat.lt_succ_self m, h, hj⟩

/-- The queue after a merge: the new node, and the old members but for its children. -/
theorem inQueue_succ {f l r : Nat} (h : node[m]? = some (TreeNode.internal f l r)) :
    inQueue node (m + 1) i ↔ i ≤ m ∧ ¬ hasParent node m i ∧ i ≠ l ∧ i ≠ r := by
  rw [inQueue, hasParent_succ h, Nat.lt_succ_iff, not_or, not_or]

end

/-! ## A list without two of its members -/

theorem mem_erase_erase {α : Type} [DecidableEq α] {l : List α} (hn : l.Nodup) {a b i : α} :
    i ∈ (l.erase a).erase b ↔ i ∈ l ∧ i ≠ a ∧ i ≠ b := by
  rw [(hn.erase a).mem_erase_iff, hn.mem_erase_iff]
  tauto

theorem perm_cons_cons_erase {α : Type} [DecidableEq α] {l : List α} {a b : α} (ha : a ∈ l) (hb : b ∈ l)
    (hab : a ≠ b) : l.Perm (a :: b :: (l.erase a).erase b) :=
  (List.perm_cons_erase ha).trans ((List.perm_cons_erase ((List.mem_erase_of_ne hab.symm).2 hb)).cons a)

/-! ## The history of the merge loop -/

/-- Node `m` joins `a` and `b`, the two members that pop first from the queue of its time (R113, R114). -/
structure JoinsFirstTwo (tie : Config.Tie) (node : List TreeNode) (m a b : Nat) : Prop where
  created : node[m]? = some (TreeNode.internal (nodeFreq node a + nodeFreq node b) a b)
  left : inQueue node m a
  right : inQueue node m b
  ne : a ≠ b
  first : tie (nodeKey node a) (nodeKey node b) = true
  second : ∀ j, inQueue node m j → j ≠ a → j ≠ b → tie (nodeKey node b) (nodeKey node j) = true

theorem JoinsFirstTwo.append {tie : Config.Tie} {node : List TreeNode} {m a b : Nat}
    (h : JoinsFirstTwo tie node m a b) (hm : m < node.length) (more : List TreeNode) :
    JoinsFirstTwo tie (node ++ more) m a b := by
  have ha := h.left.1.trans hm
  have hb := h.right.1.trans hm
  refine ⟨?_, (inQueue_append hm.le).2 h.left, (inQueue_append hm.le).2 h.right, h.ne, ?_, fun j hj => ?_⟩
  · rw [List.getElem?_append_left hm, nodeFreq_append ha, nodeFreq_append hb]
    exact h.created
  · rw [nodeKey_append ha, nodeKey_append hb]
    exact h.first
  · rw [nodeKey_append hb, nodeKey_append (hj.1.trans hm)]
    exact h.second j ((inQueue_append hm.le).1 hj)

/-- What the merge loop has done so far: every node after the leaves joins the two members that popped first, and the
queue holds the nodes that have no parent. -/
structure MergeHistory (tie : Config.Tie) (fr : FreqTable) (f : Forest) : Prop where
  joins : ∀ m, (alphabet fr).length ≤ m → m < f.node.length → ∃ a b, JoinsFirstTwo tie f.node m a b
  queue : ∀ i, i ∈ f.pq ↔ inQueue f.node f.node.length i

theorem ForestOk.getElem?_leaf {fr : FreqTable} {f : Forest} (hf : ForestOk fr f) {k : Nat}
    (hk : k < (alphabet fr).length) :
    f.node[k]? = some (TreeNode.leaf (fr.count (alphabet fr)[k]) (alphabet fr)[k]) := by
  obtain ⟨inner, hnode⟩ := hf.leaves
  rw [hnode, List.getElem?_append_left (by rwa [length_leaves]), getElem?_leaves fr hk]

section
variable {tie : Config.Tie} {fr : FreqTable} {f : Forest}

/-- An internal node is one the merge loop has made. -/
theorem MergeHistory.joins_of_internal (h : MergeHistory tie fr f) (hf : ForestOk fr f) {i k l r : Nat}
    (hi : f.node[i]? = some (TreeNode.internal k l r)) : JoinsFirstTwo tie f.node i l r := by
  have hle : (alphabet fr).length ≤ i := by
    by_contra hlt
    rw [hf.getElem?_leaf (Nat.lt_of_not_le hlt)] at hi
    cases hi
  obtain ⟨a, b, hab⟩ := h.joins i hle (List.getElem?_eq_some_iff.1 hi).1
  have := hab.created.symm.trans hi
  cases this
  exact hab

/-- The newest node has no parent, for a child is older than its parent. -/
theorem MergeHistory.not_hasParent_length (h : MergeHistory tie fr f) (hf : ForestOk fr f) :
    ¬ hasParent f.node f.node.length f.node.length := by
  rintro ⟨i, k, l, r, hi, hnode, hchild⟩
  have hj := h.joins_of_internal hf hnode
  have hl := hj.left.1
  have hr := hj.right.1
  omega

theorem mergeHistory_leafForest : MergeHistory tie fr (leafForest fr) := by
  refine ⟨fun m hle hlt => ?_, fun i => ?_⟩
  · rw [leafForest, length_leaves] at hlt
    omega
  · have hno : ¬ hasParent (leaves fr) (leaves fr).length i := by
      rintro ⟨j, k, l, r, hj, hnode, -⟩
      rw [length_leaves] at hj
      rw [getElem?_leaves fr hj] at hnode
      cases hnode
    simp [leafForest, inQueue, hno]

/-- A merge adds one node to the history. -/
theorem mergeHistory_mergeStep (ht : RefinesFrequency tie) (f f' : Forest) (hf : ForestOk fr f)
    (h : MergeHistory tie fr f) (hstep : mergeStep tie f = some f') : MergeHistory tie fr f' := by
  rcases mergeStep_spec ht f hf.nodup with ⟨-, hnone⟩ | ⟨a, b, ha, hb, hab, hfirst, hsecond, he⟩
  · rw [hnone] at hstep; cases hstep
  rw [he] at hstep
  cases hstep
  have hla := hf.lt a ha
  have hlb := hf.lt b hb
  have hnew : (f.node ++ [TreeNode.internal (nodeFreq f.node a + nodeFreq f.node b) a b])[f.node.length]? =
      some (TreeNode.internal (nodeFreq f.node a + nodeFreq f.node b) a b) := List.getElem?_concat_length
  refine ⟨fun m hle hlt => ?joins, fun i => ?queue⟩
  case joins =>
    rw [List.length_append, List.length_singleton] at hlt
    obtain hlt | rfl := Nat.lt_succ_iff_lt_or_eq.1 hlt
    · obtain ⟨c, d, hcd⟩ := h.joins m hle hlt
      exact ⟨c, d, hcd.append hlt _⟩
    · refine ⟨a, b, ?_, (inQueue_append le_rfl).2 ((h.queue a).1 ha), (inQueue_append le_rfl).2 ((h.queue b).1 hb), hab,
        ?_, fun j hj => ?_⟩
      · rw [nodeFreq_append hla, nodeFreq_append hlb, hnew]
      · rw [nodeKey_append hla, nodeKey_append hlb]
        exact hfirst
      · rw [nodeKey_append hlb, nodeKey_append hj.1]
        exact hsecond j ((h.queue j).2 ((inQueue_append le_rfl).1 hj))
  case queue =>
    rw [List.mem_append, List.mem_singleton, mem_erase_erase hf.nodup, h.queue, List.length_append,
      List.length_singleton, inQueue_succ hnew, hasParent_append le_rfl, inQueue]
    obtain hi | rfl | hi := lt_trichotomy i f.node.length
    · simp [hi, hi.le, hi.ne]
    · simp [h.not_hasParent_length hf, hla.ne', hlb.ne']
    · simp [hi.not_gt, hi.not_ge, hi.ne']

theorem mergeHistory_buildTree (ht : RefinesFrequency tie) (h : alphabet fr ≠ []) :
    MergeHistory tie fr (buildTree tie fr) :=
  (mergeLoop_induction ht (mergeHistory_mergeStep ht) _ _ (forestOk_leafForest h) mergeHistory_leafForest
    (Nat.le_succ _)).2.1

/-- Every leaf of a built tree has the frequency of its Symbol. -/
theorem freq_of_leaf (ht : RefinesFrequency tie) (h : alphabet fr ≠ []) (i k : Nat) (a : Symbol)
    (hi : (buildTree tie fr).node[i]? = some (TreeNode.leaf k a)) : k = fr.count a := by
  obtain ⟨hf, -⟩ := buildTree_spec ht h
  by_cases hlt : i < (alphabet fr).length
  · rw [hf.getElem?_leaf hlt] at hi
    cases hi
    rfl
  · obtain ⟨hlen, -⟩ := List.getElem?_eq_some_iff.1 hi
    obtain ⟨l, r, hjoin⟩ := (mergeHistory_buildTree ht h).joins i (Nat.le_of_not_lt hlt) hlen
    have := hjoin.created.symm.trans hi
    cases this

/-! ## The tree is strict (R115) -/

/-- What pops first is not heavier. -/
theorem nodeFreq_le_of_tie (ht : RefinesFrequency tie) {node : List TreeNode} {a b : Nat}
    (h : tie (nodeKey node a) (nodeKey node b) = true) : nodeFreq node a ≤ nodeFreq node b := by
  obtain ⟨hlt, hirr, htrans, -⟩ := ht
  by_contra hgt
  have := htrans _ _ _ h (hlt (nodeKey node b) (nodeKey node a) (Nat.lt_of_not_le hgt))
  rw [hirr] at this
  cases this

/-- The two nodes that pop first weigh no more together than any other two nodes of the queue after them. -/
theorem JoinsFirstTwo.nodeFreq_le_succ (ht : RefinesFrequency tie) {node : List TreeNode} {m a b c d : Nat}
    (h : JoinsFirstTwo tie node m a b) (h' : JoinsFirstTwo tie node (m + 1) c d) :
    nodeFreq node m ≤ nodeFreq node (m + 1) := by
  have hm : nodeFreq node m = nodeFreq node a + nodeFreq node b := by
    rw [nodeFreq, h.created]; rfl
  have hm' : nodeFreq node (m + 1) = nodeFreq node c + nodeFreq node d := by
    rw [nodeFreq, h'.created]; rfl
  have hab := nodeFreq_le_of_tie ht h.first
  have hrest : ∀ j, inQueue node (m + 1) j → j ≠ m → nodeFreq node b ≤ nodeFreq node j := by
    intro j hj hne
    obtain ⟨hle, hno, hja, hjb⟩ := (inQueue_succ h.created).1 hj
    exact nodeFreq_le_of_tie ht (h.second j ⟨by omega, hno⟩ hja hjb)
  by_cases hc : c = m
  · subst hc; omega
  by_cases hd : d = m
  · subst hd; omega
  have := hrest c h'.left hc
  have := hrest d h'.right hd
  omega

/-- Internal nodes are created with non-decreasing frequency (R114). -/
theorem MergeHistory.nodeFreq_mono (ht : RefinesFrequency tie) (h : MergeHistory tie fr f) {i j : Nat}
    (hi : (alphabet fr).length ≤ i) (hij : i ≤ j) (hj : j < f.node.length) :
    nodeFreq f.node i ≤ nodeFreq f.node j := by
  induction j, hij using Nat.le_induction with
  | base => exact le_rfl
  | succ j hij ih =>
    obtain ⟨a, b, hab⟩ := h.joins j (hi.trans hij) (by omega)
    obtain ⟨c, d, hcd⟩ := h.joins (j + 1) (by omega) hj
    exact (ih (by omega)).trans (hab.nodeFreq_le_succ ht hcd)

/-- A node that has left the queue has one parent: the first one took it from the queue for good. -/
theorem MergeHistory.existsUnique_parent (h : MergeHistory tie fr f) (hf : ForestOk fr f) {j : Nat}
    (hj : j < f.node.length) (hpq : j ∉ f.pq) :
    ∃! i : Nat, ∃ k l r : Nat, f.node[i]? = some (TreeNode.internal k l r) ∧ (j = l ∨ j = r) := by
  have hpar : hasParent f.node f.node.length j := by
    by_contra hno
    exact hpq ((h.queue j).2 ⟨hj, hno⟩)
  obtain ⟨i, k, l, r, -, hi, hchild⟩ := hpar
  have hle : ∀ {i i' k k' l l' r r' : Nat}, f.node[i]? = some (TreeNode.internal k l r) → (j = l ∨ j = r) →
      f.node[i']? = some (TreeNode.internal k' l' r') → (j = l' ∨ j = r') → i ≤ i' := by
    intro i i' k k' l l' r r' hi hchild hi' hchild'
    by_contra hlt
    have hjoin := h.joins_of_internal hf hi
    have hno : ¬ hasParent f.node i j := by
      obtain rfl | rfl := hchild
      · exact hjoin.left.2
      · exact hjoin.right.2
    exact hno ⟨i', k', l', r', Nat.lt_of_not_le hlt, hi', hchild'⟩
  refine ⟨i, ⟨k, l, r, hi, hchild⟩, ?_⟩
  rintro i' ⟨k', l', r', hi', hchild'⟩
  exact le_antisymm (hle hi' hchild' hi hchild) (hle hi hchild hi' hchild')

end

/-- Settles O56: a node joins the first two of its queue, so the tree is strict and heavier nodes come later. -/
theorem everyTieOrderBuildsAStrictTree : Obligations.EveryTieOrderBuildsAStrictTree := by
  intro tie fr ht hn
  have hne : alphabet fr ≠ [] := List.ne_nil_of_length_pos hn
  obtain ⟨hf, hpq, hlen, t, hat, -, -, hsum⟩ := buildTree_spec ht hne
  have hist := mergeHistory_buildTree ht hne
  refine ⟨hlen, hpq, ?root, fun j hj hroot => ?parent, fun i k l r hi => ?children,
    fun i j hi hij hj => hist.nodeFreq_mono ht hi hij hj⟩
  case root => rw [HTree.nodeFreq_of_standsAt hat, hsum, sum_count_eq_sum_alphabet]
  case parent => exact hist.existsUnique_parent hf hj (by rwa [hpq, List.mem_singleton])
  case children =>
    have hjoin := hist.joins_of_internal hf hi
    exact ⟨hjoin.ne, hjoin.left.1, hjoin.right.1, nodeFreq_le_of_tie ht hjoin.first⟩

/-! ## The phase `E_BUILD` -/

/-- `ROOT` is the last node made (R115). -/
theorem eBuild_root {s : State} (hn : s.enc.n = (alphabet s.enc.freq).length) (h1 : 1 ≤ s.enc.n) :
    (eBuild s).enc.root = 2 * s.enc.n - 2 := by
  have hne : alphabet s.enc.freq ≠ [] := List.ne_nil_of_length_pos (hn ▸ h1)
  obtain ⟨-, hpq, -⟩ := buildTree_spec refinesFrequency_tie hne
  obtain ⟨-, -, -, hroot⟩ := eBuild_forest (Nat.ne_of_gt h1)
  rw [hroot, hpq, hn]
  rfl

theorem eBuild_frame {s : State} (h : s.enc.n ≠ 0) :
    eBuild s = { s with enc := { s.enc with node := (eBuild s).enc.node, next := (eBuild s).enc.next,
                                            pq := (eBuild s).enc.pq, root := (eBuild s).enc.root },
                        phase := .eCode } := by
  rw [eBuild, if_neg h]
  rfl

theorem tie_iff_popsBefore (node : List TreeNode) (a b : Nat) :
    Config.tie (nodeKey node a) (nodeKey node b) = true ↔ popsBefore node a b := by
  simp only [Config.tie, Bool.or_eq_true, Bool.and_eq_true, decide_eq_true_iff]
  rfl

/-- Under the order of R113 the two nodes that pop first are the two least. -/
theorem JoinsFirstTwo.mergesTwoLeast {node : List TreeNode} {m a b : Nat}
    (h : JoinsFirstTwo Config.tie node m a b) : mergesTwoLeast node m :=
  ⟨a, b, h.created, h.left, h.right, (tie_iff_popsBefore node a b).1 h.first,
    fun j hj hja hjb => (tie_iff_popsBefore node b j).1 (h.second j hj hja hjb)⟩

/-- Settles O18: the nodes are those of `buildTree`, and its merge loop joins the two least each time. -/
theorem buildMergesTheTwoLeast : Obligations.BuildMergesTheTwoLeast := by
  intro s hn h1
  have hne : alphabet s.enc.freq ≠ [] := List.ne_nil_of_length_pos (hn ▸ h1)
  obtain ⟨hf, hpq, hlen, -⟩ := buildTree_spec refinesFrequency_tie hne
  obtain ⟨hnode, hpq', hnext, -⟩ := eBuild_forest (Nat.ne_of_gt h1)
  have hroot := eBuild_root hn h1
  refine ⟨eBuild s, rfl, eBuild_frame (Nat.ne_of_gt h1), ?len, ?next, hroot, ?pq, fun k hk => ?leaf,
    fun m hle hlt => ?merge⟩
  case len => rw [hnode, hlen, hn]
  case next => rw [hnext, hlen, hn]
  case pq => rw [hpq', hpq, hroot, hn]
  case leaf => rw [hnode, hf.getElem?_leaf hk]
  case merge =>
    rw [hn] at hle hlt
    obtain ⟨a, b, hab⟩ := (mergeHistory_buildTree refinesFrequency_tie hne).joins m hle (by rwa [hlen])
    exact hnode ▸ hab.mergesTwoLeast

/-- Settles O19: `E_BUILD` makes the tree of its own tie-break order, and that tree is strict. -/
theorem builtTreeIsStrict : Obligations.BuiltTreeIsStrict := by
  intro s hn h1
  obtain ⟨-, -, hsum, hparent, hchildren, hmono⟩ :=
    everyTieOrderBuildsAStrictTree Config.tie s.enc.freq refinesFrequency_tie (hn ▸ h1)
  obtain ⟨hnode, -⟩ := eBuild_forest (Nat.ne_of_gt h1)
  have hroot := eBuild_root hn h1
  rw [hn] at hroot
  refine ⟨eBuild s, rfl, ?_⟩
  rw [hnode, hroot, hn]
  exact ⟨hsum, hparent, hchildren, hmono⟩

end Sys2Proof.Machine
end

section
/-!
PROOF. Codes are paths (spec/40_encoder.md R118 to R120): the entries of a table are the paths from `ROOT`
to the leaves.
-/

namespace Sys2Proof.Machine

/-- One branch of a walk. -/
theorem walk_cons {node : List TreeNode} {i f l r : Nat} (h : node[i]? = some (TreeNode.internal f l r)) (b : Bit)
    (p : BitString) : walk node i (b :: p) = walk node (if b then r else l) p := by
  simp only [walk, h]

theorem walk_cons_leaf {node : List TreeNode} {i f : Nat} {a : Symbol} (h : node[i]? = some (TreeNode.leaf f a))
    (b : Bit) (p : BitString) : walk node i (b :: p) = none := by
  simp only [walk, h]

/-- The paths of a tree begin with the branch taken at its root. -/
theorem HTree.mem_entries_node {f : Nat} {l r : HTree} {a : Symbol} {c : BitString} :
    (a, c) ∈ (HTree.node f l r).entries [] ↔
      (∃ p, c = false :: p ∧ (a, p) ∈ l.entries []) ∨ ∃ p, c = true :: p ∧ (a, p) ∈ r.entries [] := by
  have hbranch (t : HTree) (b : Bit) : (a, c) ∈ t.entries [b] ↔ ∃ p, c = b :: p ∧ (a, p) ∈ t.entries [] := by
    have he := t.entries_append [b] []
    rw [List.append_nil] at he
    rw [he, List.mem_map]
    constructor
    · rintro ⟨⟨a', p⟩, hp, heq⟩
      cases heq
      exact ⟨p, rfl, hp⟩
    · rintro ⟨p, rfl, hp⟩
      exact ⟨(a, p), hp, rfl⟩
  rw [HTree.entries, List.mem_append, List.nil_append, List.nil_append, hbranch, hbranch]

/-- The paths of the tree that stands at a node are the walks from there to its leaves. -/
theorem HTree.mem_entries_iff_walk {node : List TreeNode} {t : HTree} {i : Nat} (h : t.standsAt node i) {a : Symbol}
    {c : BitString} :
    (a, c) ∈ t.entries [] ↔ ∃ j k, walk node i c = some j ∧ node[j]? = some (TreeNode.leaf k a) := by
  induction t generalizing i c with
  | leaf f s =>
    have hi : node[i]? = some (TreeNode.leaf f s) := h
    cases c with
    | nil => simp [HTree.entries, walk, hi, eq_comm]
    | cons b p => simp [HTree.entries, walk_cons_leaf hi]
  | node f l r hl hr =>
    obtain ⟨x, y, hi, hx, hy⟩ := h
    cases c with
    | nil => simp [HTree.mem_entries_node, walk, hi]
    | cons b p =>
      rw [HTree.mem_entries_node, walk_cons hi]
      cases b with
      | false => simp [hl hx]
      | true => simp [hr hy]

/-- The table of a frequency table's tree, and the tree it comes from. -/
theorem codes_buildTree {tie : Config.Tie} (ht : RefinesFrequency tie) {fr : FreqTable} (h : alphabet fr ≠ []) :
    ∃ (ct : CodeTable) (t : HTree), codes (buildTree tie fr).node (2 * (alphabet fr).length - 2) = some ct ∧ ct.wf ∧
      ct.OfTree t ∧ t.standsAt (buildTree tie fr).node (2 * (alphabet fr).length - 2) ∧ t.weighted ∧
      t.syms.Perm (alphabet fr) := by
  obtain ⟨-, -, hlen, t, hat, hw, hperm, -⟩ := buildTree_spec ht h
  have hpos := List.length_pos_iff.2 h
  obtain ⟨ct, hct, hwf, hof⟩ := codes_of_standsAt hat (by rw [hperm.length_eq, hlen]; omega)
    (hperm.nodup_iff.2 (alphabet_nodup fr))
  exact ⟨ct, t, hct, hwf, hof, hat, hw, hperm⟩

@[simp] theorem mem_invert {ct : CodeTable} {a : Symbol} {c : BitString} : (c, a) ∈ invert ct ↔ (a, c) ∈ ct := by
  simp [invert]

/-- Settles O20: the table `E_CODE` derives is that of the tree that stands at `ROOT`. -/
theorem codesAreTheLeafPaths : Obligations.CodesAreTheLeafPaths := by
  intro s f h1 hnode hroot
  obtain ⟨ct, t, hct, hwf, hof, hat, -, hperm⟩ := codes_buildTree refinesFrequency_tie (List.ne_nil_of_length_pos h1)
  rw [← hnode, ← hroot] at hct hat
  have hderived : (eCode s).ct = ct := by rw [eCode_ct, State.derivedTable, hct]; rfl
  refine ⟨eCode s, rfl, rfl, fun h2 a c => ?_, fun h1 a c => ?_, hderived ▸ hwf, fun a c => mem_invert⟩
  · rw [hderived, hof.mem_of_two_le (hperm.length_eq ▸ h2), HTree.mem_entries_iff_walk hat]
  · rw [hderived, hof.mem_of_one (hperm.length_eq ▸ h1), hperm.mem_iff]

end Sys2Proof.Machine
end

section
/-!
PROOF. Merging the two least nodes gives the least cost (spec/40_encoder.md R123). Code lengths are kept as a multiset
of pairs (weight, length) that meets Kraft's inequality. Each merge turns such a multiset for the queue's weights into
one for the weights of the next queue, cheaper by the weight of the new node; so no code is cheaper than the tree.
-/

namespace Sys2Proof.Machine

/-! ## Weights with code lengths -/

/-- The weights of a multiset of pairs (weight, code length). -/
def weightsOf (M : Multiset (Nat × Nat)) : Multiset Nat := M.map Prod.fst

/-- The lengths of a multiset of pairs (weight, code length). -/
def lengthsOf (M : Multiset (Nat × Nat)) : Multiset Nat := M.map Prod.snd

/-- The number of coded bits: the sum of weight times length. -/
def costOf (M : Multiset (Nat × Nat)) : Nat := (M.map fun p => p.1 * p.2).sum

/-- The Kraft sum of code lengths. -/
noncomputable def kraftOf (L : Multiset Nat) : ℝ := (L.map fun l => (1 / 2 : ℝ) ^ l).sum

section
variable (p : Nat × Nat) (M : Multiset (Nat × Nat)) (l : Nat) (L : Multiset Nat)

@[simp] theorem weightsOf_cons : weightsOf (p ::ₘ M) = p.1 ::ₘ weightsOf M := Multiset.map_cons _ _ _

@[simp] theorem lengthsOf_cons : lengthsOf (p ::ₘ M) = p.2 ::ₘ lengthsOf M := Multiset.map_cons _ _ _

@[simp] theorem costOf_cons : costOf (p ::ₘ M) = p.1 * p.2 + costOf M := by simp [costOf]

@[simp] theorem kraftOf_cons : kraftOf (l ::ₘ L) = (1 / 2 : ℝ) ^ l + kraftOf L := by simp [kraftOf]

end

/-- The exchange: giving a least weight the greatest length costs no more. -/
theorem exists_least_longest {M : Multiset (Nat × Nat)} {a : Nat} (ha : a ∈ weightsOf M)
    (hleast : ∀ w ∈ weightsOf M, a ≤ w) :
    ∃ (k : Nat) (R : Multiset (Nat × Nat)), weightsOf M = a ::ₘ weightsOf R ∧ lengthsOf M = k ::ₘ lengthsOf R ∧
      a * k + costOf R ≤ costOf M ∧ ∀ l ∈ lengthsOf R, l ≤ k := by
  obtain ⟨⟨a', l⟩, hal, rfl⟩ := Multiset.mem_map.1 ha
  obtain ⟨⟨x, k⟩, hxk, hmax⟩ := M.toFinset.exists_max_image Prod.snd ⟨_, Multiset.mem_toFinset.2 hal⟩
  simp only [Multiset.mem_toFinset] at hxk hmax
  have hlongest : ∀ m ∈ lengthsOf M, m ≤ k := fun m hm => by
    obtain ⟨q, hq, rfl⟩ := Multiset.mem_map.1 hm
    exact hmax q hq
  have hax : a' ≤ x := hleast x (Multiset.mem_map_of_mem Prod.fst hxk)
  obtain ⟨M₁, rfl⟩ := Multiset.exists_cons_of_mem hxk
  by_cases heq : (a', l) = (x, k)
  · cases heq
    exact ⟨l, M₁, by simp, by simp, by simp, fun m hm => hlongest m (by simp [hm])⟩
  · obtain ⟨M₂, rfl⟩ := Multiset.exists_cons_of_mem ((Multiset.mem_cons.1 hal).resolve_left heq)
    refine ⟨k, (x, l) ::ₘ M₂, by simp [Multiset.cons_swap], by simp, ?_, fun m hm => hlongest m ?_⟩
    · have : a' * l + x * k ≥ a' * k + x * l := mul_add_mul_le_mul_add_mul hax (hmax _ hal)
      simp only [costOf_cons]
      omega
    · simp only [lengthsOf_cons] at hm ⊢
      exact Multiset.mem_cons_of_mem hm

/-- Lengths up to `k` have a Kraft sum that is a multiple of `2^-k`. -/
theorem exists_kraftOf_eq {L : Multiset Nat} {k : Nat} (h : ∀ l ∈ L, l ≤ k) :
    ∃ n : Nat, kraftOf L = n * (1 / 2 : ℝ) ^ k := by
  induction L using Multiset.induction with
  | empty => exact ⟨0, by simp [kraftOf]⟩
  | cons l L ih =>
    obtain ⟨n, hn⟩ := ih fun m hm => h m (Multiset.mem_cons_of_mem hm)
    obtain ⟨d, rfl⟩ := Nat.exists_eq_add_of_le (h l (Multiset.mem_cons_self l L))
    refine ⟨2 ^ d + n, ?_⟩
    have hpow : (2 : ℝ) ^ d * (1 / 2) ^ d = 1 := by rw [← mul_pow]; norm_num
    rw [kraftOf_cons, hn, pow_add]
    push_cast
    linear_combination (-(1 / 2 : ℝ) ^ l) * hpow

/-- The two longest codes leave room for two codes of the shorter one's length, and so for one code a bit shorter. -/
theorem kraftOf_join_le {L : Multiset Nat} {k₁ k₂ : Nat} (hL : ∀ l ∈ L, l ≤ k₂)
    (hk : kraftOf (k₁ ::ₘ k₂ ::ₘ L) ≤ 1) : ∃ k, k₂ = k + 1 ∧ kraftOf (k ::ₘ L) ≤ 1 := by
  obtain ⟨n, hn⟩ := exists_kraftOf_eq hL
  rw [kraftOf_cons, kraftOf_cons, hn] at hk
  have hpos : (0 : ℝ) < (1 / 2) ^ k₁ := by positivity
  have hpow : (2 : ℝ) ^ k₂ * (1 / 2) ^ k₂ = 1 := by rw [← mul_pow]; norm_num
  have hlt : n + 1 < 2 ^ k₂ := by
    have hlt : ((n : ℝ) + 1) * (1 / 2) ^ k₂ < 2 ^ k₂ * (1 / 2) ^ k₂ := by rw [hpow]; linarith
    exact_mod_cast lt_of_mul_lt_mul_right hlt (by positivity)
  obtain ⟨k, rfl⟩ : ∃ k, k₂ = k + 1 := Nat.exists_eq_succ_of_ne_zero (by rintro rfl; simp at hlt)
  refine ⟨k, rfl, ?_⟩
  have hroom : ((n : ℝ) + 2) * (1 / 2) ^ (k + 1) ≤ 2 ^ (k + 1) * (1 / 2) ^ (k + 1) :=
    mul_le_mul_of_nonneg_right (by exact_mod_cast hlt) (by positivity)
  rw [hpow] at hroom
  rw [kraftOf_cons, hn]
  rw [pow_succ] at hroom ⊢
  linarith

/-- Joining the two least weights into one saves at least their sum. -/
theorem exists_joined {M : Multiset (Nat × Nat)} {a b : Nat} {W : Multiset Nat} (hM : weightsOf M = a ::ₘ b ::ₘ W)
    (hab : a ≤ b) (hb : ∀ w ∈ W, b ≤ w) (hk : kraftOf (lengthsOf M) ≤ 1) :
    ∃ R, weightsOf R = (a + b) ::ₘ W ∧ kraftOf (lengthsOf R) ≤ 1 ∧ costOf R + (a + b) ≤ costOf M := by
  obtain ⟨k₁, R₁, hw₁, hl₁, hc₁, hlongest⟩ := exists_least_longest (M := M) (a := a) (by simp [hM])
    (by simpa [hM, hab] using fun w hw => hab.trans (hb w hw))
  have hR₁ : weightsOf R₁ = b ::ₘ W := Multiset.cons_inj_right a |>.1 (hw₁.symm.trans hM)
  obtain ⟨k₂, R₂, hw₂, hl₂, hc₂, hlong⟩ := exists_least_longest (M := R₁) (a := b) (by simp [hR₁])
    (by simpa [hR₁] using hb)
  have hR₂ : weightsOf R₂ = W := Multiset.cons_inj_right b |>.1 (hw₂.symm.trans hR₁)
  rw [hl₂] at hl₁
  obtain ⟨k, rfl, hkraft⟩ := kraftOf_join_le (k₁ := k₁) hlong (hl₁ ▸ hk)
  refine ⟨(a + b, k) ::ₘ R₂, by simp [hR₂], by simpa using hkraft, ?_⟩
  have hle : k + 1 ≤ k₁ := hlongest _ (by simp [hl₂])
  have : a * (k + 1) ≤ a * k₁ := Nat.mul_le_mul_left a hle
  rw [costOf_cons]
  linarith

/-! ## The inner nodes' frequencies are the cost of a tree -/

namespace HTree

/-- The frequencies of the inner nodes together: what the merges that made the tree cost. -/
def innerSum : HTree → Nat
  | .leaf _ _ => 0
  | .node f l r => f + l.innerSum + r.innerSum

theorem standsAt_unique {node : List TreeNode} {t t' : HTree} {i : Nat} (h : t.standsAt node i)
    (h' : t'.standsAt node i) : t = t' := by
  induction t generalizing t' i with
  | leaf f s =>
    cases t' with
    | leaf f' s' =>
      have := h.symm.trans h'
      cases this
      rfl
    | node f' l' r' =>
      obtain ⟨a, b, hi, -, -⟩ := h'
      have := h.symm.trans hi
      cases this
  | node f l r hl hr =>
    obtain ⟨a, b, hi, ha, hb⟩ := h
    cases t' with
    | leaf f' s' =>
      have := h'.symm.trans hi
      cases this
    | node f' l' r' =>
      obtain ⟨a', b', hi', ha', hb'⟩ := h'
      have := hi.symm.trans hi'
      cases this
      rw [hl ha ha', hr hb hb']

/-- The sum of frequency times path length over the leaves is the sum of the inner nodes' frequencies, where every leaf
has the frequency of its Symbol. -/
theorem sum_entries {node : List TreeNode} {count : Symbol → Nat}
    (hleaf : ∀ (i f : Nat) (s : Symbol), node[i]? = some (TreeNode.leaf f s) → f = count s) {t : HTree} {i : Nat}
    (hat : t.standsAt node i) (hw : t.weighted) (p : BitString) :
    ((t.entries p).map fun e => count e.1 * e.2.length).sum = t.innerSum + t.freq * p.length := by
  induction t generalizing i p with
  | leaf f s => simp [entries, innerSum, freq, hleaf i f s hat]
  | node f l r hl hr =>
    obtain ⟨a, b, -, ha, hb⟩ := hat
    obtain ⟨rfl, hwl, hwr⟩ := hw
    rw [entries, List.map_append, List.sum_append, hl ha hwl, hr hb hwr, innerSum, freq_node, List.length_append,
      List.length_append, List.length_singleton, List.length_singleton]
    ring

end HTree

/-! ## The merge loop -/

theorem map_nodeFreq_range (node : List TreeNode) :
    (List.range node.length).map (nodeFreq node) = node.map TreeNode.freq := by
  refine List.ext_getElem (by simp) fun i _ h => ?_
  have hi : i < node.length := by simpa using h
  simp [nodeFreq, hi]

/-- What is left to code after some merges costs no more, with the merges' own cost, than `c`: there are lengths for the
queue's weights that meet Kraft's inequality and make it so. -/
def CostsAtMost (c : Nat) (f : Forest) : Prop :=
  ∃ (t : Nat → HTree) (M : Multiset (Nat × Nat)), (∀ i ∈ f.pq, (t i).standsAt f.node i) ∧
    weightsOf M = f.pq.map (nodeFreq f.node) ∧ kraftOf (lengthsOf M) ≤ 1 ∧
    costOf M + (f.pq.map fun i => (t i).innerSum).sum ≤ c

theorem costsAtMost_leafForest {fr : FreqTable} (h : alphabet fr ≠ []) {M : Multiset (Nat × Nat)}
    (hM : weightsOf M = (alphabet fr).map fr.count) (hk : kraftOf (lengthsOf M) ≤ 1) :
    CostsAtMost (costOf M) (leafForest fr) := by
  obtain ⟨t, htree, -⟩ := (forestOk_leafForest h).trees
  have hzero : ∀ i ∈ (leafForest fr).pq, (t i).innerSum = 0 := by
    intro i hi
    have hi' : i < (alphabet fr).length := by simpa [leafForest, length_leaves] using hi
    have hleaf : (HTree.leaf _ _).standsAt (leafForest fr).node i := getElem?_leaves fr hi'
    rw [HTree.standsAt_unique (htree i hi).1 hleaf]
    rfl
  refine ⟨t, M, fun i hi => (htree i hi).1, ?_, hk, ?_⟩
  · rw [hM, leafForest, map_nodeFreq_range, leaves, List.map_map]
    rfl
  · rw [List.map_congr_left hzero]
    simp

variable {tie : Config.Tie}

/-- A merge joins the two least weights of the queue. -/
theorem costsAtMost_mergeStep (ht : RefinesFrequency tie) {fr : FreqTable} {c : Nat} (f f' : Forest)
    (hf : ForestOk fr f) (h : CostsAtMost c f) (hstep : mergeStep tie f = some f') : CostsAtMost c f' := by
  rcases mergeStep_spec ht f hf.nodup with ⟨-, hnone⟩ | ⟨a, b, ha, hb, hab, hfirst, hsecond, he⟩
  · rw [hnone] at hstep; cases hstep
  rw [he] at hstep
  cases hstep
  obtain ⟨t, M, htree, hM, hk, hc⟩ := h
  obtain ⟨rest, hrest⟩ : ∃ rest, rest = (f.pq.erase a).erase b := ⟨_, rfl⟩
  have hperm : f.pq.Perm (a :: b :: rest) := hrest ▸ perm_cons_cons_erase ha hb hab
  have hmem : ∀ i ∈ rest, i ∈ f.pq ∧ i ≠ a ∧ i ≠ b := fun i hi => (mem_erase_erase hf.nodup).1 (hrest ▸ hi)
  have hold : ∀ i ∈ rest, i ≠ f.node.length := fun i hi => (hf.lt i (hmem i hi).1).ne
  rw [Multiset.coe_eq_coe.2 (hperm.map _)] at hM
  obtain ⟨R, hR, hkR, hcR⟩ := exists_joined (W := rest.map (nodeFreq f.node)) hM (nodeFreq_le_of_tie ht hfirst) (by
    intro w hw
    obtain ⟨i, hi, rfl⟩ := List.mem_map.1 (Multiset.mem_coe.1 hw)
    obtain ⟨hpq, hia, hib⟩ := hmem i hi
    exact nodeFreq_le_of_tie ht (hsecond i hpq hia hib)) hk
  rw [← hrest]
  refine ⟨Function.update t f.node.length (.node (nodeFreq f.node a + nodeFreq f.node b) (t a) (t b)), R, ?trees,
    ?weights, hkR, ?cost⟩
  case trees =>
    intro i hi
    obtain hi | hi := List.mem_append.1 hi
    · rw [Function.update_of_ne (hold i hi)]
      exact HTree.standsAt_append (htree i (hmem i hi).1)
    · rw [List.mem_singleton.1 hi, Function.update_self]
      exact ⟨a, b, List.getElem?_concat_length, HTree.standsAt_append (htree a ha), HTree.standsAt_append (htree b hb)⟩
  case weights =>
    have hsame : rest.map (nodeFreq (f.node ++ [.internal (nodeFreq f.node a + nodeFreq f.node b) a b])) =
        rest.map (nodeFreq f.node) := List.map_congr_left fun i hi => nodeFreq_append (hf.lt i (hmem i hi).1)
    have hnew : nodeFreq (f.node ++ [.internal (nodeFreq f.node a + nodeFreq f.node b) a b]) f.node.length =
        nodeFreq f.node a + nodeFreq f.node b := by
      rw [nodeFreq, List.getElem?_concat_length]; rfl
    rw [hR, List.map_append, hsame, List.map_singleton, hnew]
    exact Multiset.coe_eq_coe.2 (List.perm_append_singleton _ _).symm
  case cost =>
    have hsame (x : HTree) : rest.map (fun i => (Function.update t f.node.length x i).innerSum) =
        rest.map fun i => (t i).innerSum :=
      List.map_congr_left fun i hi => by rw [Function.update_of_ne (hold i hi)]
    rw [(hperm.map _).sum_eq] at hc
    simp only [List.map_cons, List.sum_cons] at hc
    simp only [List.map_append, List.sum_append, hsame, List.map_singleton, List.sum_singleton, Function.update_self,
      HTree.innerSum]
    omega

/-- The tree costs no more than any code lengths that meet Kraft's inequality. -/
theorem innerSum_le_costOf (ht : RefinesFrequency tie) {fr : FreqTable} (h : alphabet fr ≠ []) {t : HTree}
    (hat : t.standsAt (buildTree tie fr).node (2 * (alphabet fr).length - 2)) {M : Multiset (Nat × Nat)}
    (hM : weightsOf M = (alphabet fr).map fr.count) (hk : kraftOf (lengthsOf M) ≤ 1) : t.innerSum ≤ costOf M := by
  obtain ⟨-, ⟨t', R, htree, -, -, hc⟩, -⟩ := mergeLoop_induction ht (costsAtMost_mergeStep ht) _ _
    (forestOk_leafForest h) (costsAtMost_leafForest h hM hk) (Nat.le_succ _)
  obtain ⟨-, hpq, -⟩ := buildTree_spec ht h
  rw [← buildTree, hpq] at htree hc
  rw [HTree.standsAt_unique hat (htree _ (List.mem_singleton_self _))]
  simp only [List.map_singleton, List.sum_singleton] at hc
  omega

end Sys2Proof.Machine
end

section
/-!
PROOF. The table of a text under any tie-break order (spec/40_encoder.md R122 to R124): its Kraft sum, the number of
coded bits, that no code whose words do not begin one another needs fewer bits, and that the scan of the coded bits
gives the text.
-/

namespace Sys2Proof.Machine

/-! ## Coded bits of a text -/

/-- The number of coded bits is the sum of frequency times code length (R123). -/
theorem length_flatMap_text (x : List Symbol) (g : Symbol → BitString) :
    (x.flatMap g).length = ((alphabet (countSymbols x)).map fun a => x.count a * (g a).length).sum := by
  rw [List.length_flatMap, Finset.sum_list_map_count, ← List.sum_toFinset _ (alphabet_nodup _),
    toFinset_alphabet_countSymbols]
  rfl

/-- The code a table gives a Symbol, empty where it gives none. -/
def CodeTable.codeD (ct : CodeTable) (a : Symbol) : BitString := (ct.code? a).getD []

theorem CodeTable.bitsOf_eq (ct : CodeTable) (x : List Symbol) : ct.bitsOf x = x.flatMap ct.codeD := rfl

theorem CodeTable.codeD_of_mem {ct : CodeTable} (hw : ct.wf) {a : Symbol} {c : BitString} (h : (a, c) ∈ ct) :
    ct.codeD a = c := by
  rw [CodeTable.codeD, (CodeTable.code?_eq_some hw).2 h]; rfl

/-- The coded bits may be summed over any list of entries of the table that has each Symbol of the text once. -/
theorem length_bitsOf_eq_sum {ct : CodeTable} (hw : ct.wf) {x : List Symbol} {es : List (Symbol × BitString)}
    (hes : ∀ e ∈ es, e ∈ ct) (hperm : (es.map Prod.fst).Perm (alphabet (countSymbols x))) :
    (ct.bitsOf x).length = (es.map fun e => x.count e.1 * e.2.length).sum := by
  rw [CodeTable.bitsOf_eq, length_flatMap_text, ← (hperm.map _).sum_eq, List.map_map]
  refine congrArg _ (List.map_congr_left fun e he => ?_)
  rw [Function.comp_apply, CodeTable.codeD_of_mem hw (hes e he)]

/-- Two Symbols that exchange their codes exchange two summands; the rest stays. -/
theorem length_flatMap_swap {x : List Symbol} (g : Symbol → BitString) {a b : Symbol} (ha : a ∈ x) (hb : b ∈ x)
    (hne : a ≠ b) :
    ∃ rest, (x.flatMap g).length = x.count a * (g a).length + (x.count b * (g b).length + rest) ∧
      (x.flatMap fun s => g (Equiv.swap a b s)).length =
        x.count a * (g b).length + (x.count b * (g a).length + rest) := by
  have hmem : ∀ s, s ∈ alphabet (countSymbols x) ↔ s ∈ x := by simp [List.count_pos_iff]
  have hperm := perm_cons_cons_erase ((hmem a).2 ha) ((hmem b).2 hb) hne
  have hsame : (((alphabet (countSymbols x)).erase a).erase b).map
      (fun s => x.count s * (g (Equiv.swap a b s)).length) =
      (((alphabet (countSymbols x)).erase a).erase b).map fun s => x.count s * (g s).length := by
    refine List.map_congr_left fun s hs => ?_
    obtain ⟨-, hsa, hsb⟩ := (mem_erase_erase (alphabet_nodup _)).1 hs
    rw [Equiv.swap_apply_of_ne_of_ne hsa hsb]
  refine ⟨((((alphabet (countSymbols x)).erase a).erase b).map fun s => x.count s * (g s).length).sum, ?_, ?_⟩
  · rw [length_flatMap_text, (hperm.map _).sum_eq, List.map_cons, List.map_cons, List.sum_cons, List.sum_cons]
  · rw [length_flatMap_text, (hperm.map _).sum_eq, List.map_cons, List.map_cons, List.sum_cons, List.sum_cons, hsame,
      Equiv.swap_apply_left, Equiv.swap_apply_right]

theorem length_le_length_flatMap {x : List Symbol} {g : Symbol → BitString} (h : ∀ a ∈ x, g a ≠ []) :
    x.length ≤ (x.flatMap g).length := by
  rw [List.length_flatMap, ← List.length_map (f := fun a => (g a).length)]
  refine List.length_le_sum_of_one_le _ fun n hn => ?_
  obtain ⟨a, ha, rfl⟩ := List.mem_map.1 hn
  exact List.length_pos_iff.2 (h a ha)

/-! ## Kraft's inequality -/

/-- Words of which none begins another can be read back from their concatenation. -/
theorem uniquelyDecodable_of_prefixFree {S : Set BitString} (hne : [] ∉ S)
    (hp : ∀ u ∈ S, ∀ v ∈ S, u <+: v → u = v) : InformationTheory.UniquelyDecodable S := by
  have hnil : ∀ {v : BitString} {L : List BitString}, v ∈ S → (v :: L).flatten ≠ [] := by
    intro v L hv h
    rw [List.flatten_cons] at h
    exact hne ((List.append_eq_nil_iff.1 h).1 ▸ hv)
  intro L₁
  induction L₁ with
  | nil =>
    intro L₂ _ h₂ heq
    cases L₂ with
    | nil => rfl
    | cons v L₂ => exact absurd heq.symm (hnil (h₂ v List.mem_cons_self))
  | cons u L₁ ih =>
    intro L₂ h₁ h₂ heq
    have hu := h₁ u List.mem_cons_self
    cases L₂ with
    | nil => exact absurd heq (hnil hu)
    | cons v L₂ =>
      have hv := h₂ v List.mem_cons_self
      rw [List.flatten_cons, List.flatten_cons] at heq
      have huv : u = v := by
        obtain h | h := List.prefix_or_prefix_of_prefix (heq ▸ List.prefix_append u L₁.flatten)
          (List.prefix_append v L₂.flatten)
        · exact hp u hu v hv h
        · exact (hp v hv u hu h).symm
      subst huv
      rw [ih L₂ (fun w hw => h₁ w (List.mem_cons_of_mem _ hw)) (fun w hw => h₂ w (List.mem_cons_of_mem _ hw))
        (List.append_cancel_left heq)]

/-- A code for the Symbols of a text: no code is empty, and none begins another Symbol's (R122 (a), R123). -/
structure IsCodeFor (x : List Symbol) (g : Symbol → BitString) : Prop where
  ne_nil : ∀ a ∈ x, g a ≠ []
  prefixFree : ∀ a ∈ x, ∀ b ∈ x, a ≠ b → ¬ g a <+: g b

/-- A code in which two Symbols of the text exchange their words is a code. -/
theorem IsCodeFor.swap {x : List Symbol} {g : Symbol → BitString} (h : IsCodeFor x g) {a b : Symbol} (ha : a ∈ x)
    (hb : b ∈ x) : IsCodeFor x fun s => g (Equiv.swap a b s) := by
  have hmem : ∀ s ∈ x, Equiv.swap a b s ∈ x := by
    intro s hs
    rw [Equiv.swap_apply_def]
    split_ifs
    · exact hb
    · exact ha
    · exact hs
  exact ⟨fun s hs => h.ne_nil _ (hmem s hs), fun s hs u hu hne =>
    h.prefixFree _ (hmem s hs) _ (hmem u hu) ((Equiv.swap a b).injective.ne hne)⟩

/-- The pairs (frequency, code length) of a text's Symbols. -/
def codePairs (x : List Symbol) (g : Symbol → BitString) : Multiset (Nat × Nat) :=
  (alphabet (countSymbols x)).map fun a => (x.count a, (g a).length)

theorem weightsOf_codePairs (x : List Symbol) (g : Symbol → BitString) :
    weightsOf (codePairs x g) = (alphabet (countSymbols x)).map (countSymbols x).count := by
  have : (countSymbols x).count = fun a => x.count a := funext (count_countSymbols x)
  simp [weightsOf, codePairs, this, Function.comp_def]

theorem costOf_codePairs (x : List Symbol) (g : Symbol → BitString) :
    costOf (codePairs x g) = (x.flatMap g).length := by
  rw [length_flatMap_text]
  simp [costOf, codePairs, Function.comp_def]

theorem IsCodeFor.eq_of_isPrefix {x : List Symbol} {g : Symbol → BitString} (h : IsCodeFor x g) {a b : Symbol}
    (ha : a ∈ x) (hb : b ∈ x) (hp : g a <+: g b) : a = b := by
  by_contra hne
  exact h.prefixFree a ha b hb hne hp

theorem IsCodeFor.kraft_le {x : List Symbol} {g : Symbol → BitString} (h : IsCodeFor x g) :
    kraftOf (lengthsOf (codePairs x g)) ≤ 1 := by
  have hsum : kraftOf (lengthsOf (codePairs x g)) = ∑ a ∈ x.toFinset, (1 / 2 : ℝ) ^ (g a).length := by
    rw [← toFinset_alphabet_countSymbols, List.sum_toFinset _ (alphabet_nodup _)]
    simp [kraftOf, lengthsOf, codePairs, Function.comp_def]
  have hinj : Set.InjOn g (x.toFinset : Set Symbol) := fun a ha b hb hab =>
    h.eq_of_isPrefix (List.mem_toFinset.1 ha) (List.mem_toFinset.1 hb) (hab ▸ List.prefix_rfl)
  have hdec : InformationTheory.UniquelyDecodable ((x.toFinset.image g : Finset BitString) : Set BitString) := by
    refine uniquelyDecodable_of_prefixFree (fun hnil => ?_) fun u hu v hv huv => ?_
    · obtain ⟨a, ha, hga⟩ := Finset.mem_image.1 (Finset.mem_coe.1 hnil)
      exact h.ne_nil a (List.mem_toFinset.1 ha) hga
    · obtain ⟨a, ha, rfl⟩ := Finset.mem_image.1 (Finset.mem_coe.1 hu)
      obtain ⟨b, hb, rfl⟩ := Finset.mem_image.1 (Finset.mem_coe.1 hv)
      rw [h.eq_of_isPrefix (List.mem_toFinset.1 ha) (List.mem_toFinset.1 hb) huv]
  have := InformationTheory.kraft_mcmillan_inequality hdec
  rwa [Finset.sum_image hinj, Fintype.card_bool, Nat.cast_ofNat, ← hsum] at this

/-! ## The table of a text -/

section
variable {tie : Config.Tie} {x : List Symbol} {ct : CodeTable}

theorem exists_tableFor (ht : RefinesFrequency tie) (hx : x ≠ []) : ∃ ct, tableFor tie x = some ct := by
  obtain ⟨ct, -, hct, -⟩ := tableFor_spec ht hx
  exact ⟨ct, hct⟩

theorem has_iff_of_tableFor (ht : RefinesFrequency tie) (hx : x ≠ []) (hct : tableFor tie x = some ct) (a : Symbol) :
    ct.has a ↔ a ∈ x := by
  obtain ⟨ct', t, hct', -, -, -, -, hhas, -⟩ := tableFor_spec ht hx
  obtain rfl : ct = ct' := Option.some.inj (hct.symm.trans hct')
  exact hhas a

/-- The tree that a text's table comes from. -/
theorem tableFor_tree (ht : RefinesFrequency tie) (hx : x ≠ []) (hct : tableFor tie x = some ct) :
    ∃ t : HTree, ct.wf ∧ ct.OfTree t ∧ t.weighted ∧ t.syms.Perm (alphabet (countSymbols x)) ∧
      t.standsAt (buildTree tie (countSymbols x)).node (2 * (alphabet (countSymbols x)).length - 2) := by
  have hne : alphabet (countSymbols x) ≠ [] := fun h => hx ((alphabet_countSymbols_eq_nil x).1 h)
  obtain ⟨-, hpq, -⟩ := buildTree_spec ht hne
  obtain ⟨ct', t, hct', hwf, hof, hat, hw, hperm⟩ := codes_buildTree ht hne
  rw [tableFor, hpq, List.head?_cons, Option.bind_some] at hct
  obtain rfl : ct = ct' := Option.some.inj (hct.symm.trans hct')
  exact ⟨t, hwf, hof, hw, hperm, hat⟩

theorem CodeTable.nodup_map_fst (hw : ct.wf) : (ct.map Prod.fst).Nodup :=
  List.pairwise_map.2 (hw.imp fun h e => by rw [e] at h; exact lt_irrefl _ h)

/-- The entries of a table have each Symbol of its text once. -/
theorem map_fst_perm_alphabet (ht : RefinesFrequency tie) (hx : x ≠ []) (hct : tableFor tie x = some ct) :
    (ct.map Prod.fst).Perm (alphabet (countSymbols x)) := by
  obtain ⟨t, hw, -⟩ := tableFor_tree ht hx hct
  refine (List.perm_ext_iff_of_nodup (CodeTable.nodup_map_fst hw) (alphabet_nodup _)).2 fun a => ?_
  rw [mem_alphabet, count_countSymbols, List.count_pos_iff, ← has_iff_of_tableFor ht hx hct a]
  simp [CodeTable.has]

theorem length_of_tableFor (ht : RefinesFrequency tie) (hx : x ≠ []) (hct : tableFor tie x = some ct) :
    ct.length = x.toFinset.card := by
  rw [← length_alphabet_countSymbols, ← (map_fst_perm_alphabet ht hx hct).length_eq, List.length_map]

/-- The table of two Symbols or more has Kraft sum 1 (R122 (d)). -/
theorem kraftSum_of_two_le (ht : RefinesFrequency tie) (hx : x ≠ []) (hct : tableFor tie x = some ct)
    (h2 : 2 ≤ ct.length) : ct.kraftSum = 1 := by
  obtain ⟨t, hw, hof, -, hperm, -⟩ := tableFor_tree ht hx hct
  have hlen : ct.length = t.syms.length := by
    rw [hperm.length_eq, ← (map_fst_perm_alphabet ht hx hct).length_eq, List.length_map]
  have hnd : ((t.entries []).map Prod.fst).Nodup := by
    rw [HTree.map_fst_entries]
    exact hperm.nodup_iff.2 (alphabet_nodup _)
  have hentries : ct.Perm (t.entries []) :=
    (List.perm_ext_iff_of_nodup (CodeTable.nodup_map_fst hw).of_map hnd.of_map).2 fun _ => hof.mem_of_two_le (hlen ▸ h2)
  rw [CodeTable.kraftSum, (hentries.map _).sum_eq, HTree.kraft_entries]
  exact pow_zero _

/-- The one code of a table of one Symbol is `"0"`, so its Kraft sum is 1/2 (R119). -/
theorem kraftSum_of_one (ht : RefinesFrequency tie) (hx : x ≠ []) (hct : tableFor tie x = some ct)
    (h1 : ct.length = 1) : ct.kraftSum = 1 / 2 := by
  obtain ⟨-, -, -, -, -, -, hzero, -⟩ := tableLegal_of_tableFor ht hx hct
  obtain ⟨e, rfl⟩ := List.length_eq_one_iff.1 h1
  simp [CodeTable.kraftSum, hzero h1 e (List.mem_singleton_self e)]

/-- A text of one Symbol is coded in one bit for each (R119). -/
theorem length_bitsOf_of_one (ht : RefinesFrequency tie) (hx : x ≠ []) (hct : tableFor tie x = some ct)
    (h1 : ct.length = 1) : (ct.bitsOf x).length = x.length := by
  obtain ⟨hw, -, -, -, -, -, hzero, -⟩ := tableLegal_of_tableFor ht hx hct
  have hone : ∀ a ∈ x, (ct.codeD a).length = 1 := by
    intro a ha
    obtain ⟨c, hc⟩ := (has_iff_of_tableFor ht hx hct a).2 ha
    have hc0 : c = [false] := hzero h1 _ hc
    rw [CodeTable.codeD_of_mem hw hc, hc0]
    rfl
  rw [CodeTable.bitsOf_eq, List.length_flatMap, List.map_congr_left hone, List.map_const', List.sum_replicate]
  simp

/-- No code for the Symbols of a text gives fewer coded bits than its table (R123). -/
theorem length_bitsOf_le (ht : RefinesFrequency tie) (hx : x ≠ []) (hct : tableFor tie x = some ct)
    {g : Symbol → BitString} (hg : IsCodeFor x g) : (ct.bitsOf x).length ≤ (x.flatMap g).length := by
  have hne : alphabet (countSymbols x) ≠ [] := fun h => hx ((alphabet_countSymbols_eq_nil x).1 h)
  obtain ⟨t, hw, hof, hweighted, hperm, hat⟩ := tableFor_tree ht hx hct
  obtain h1 | h2 := t.one_or_two_le_length_syms
  · have h1 : ct.length = 1 := by
      rw [← h1, hperm.length_eq, ← (map_fst_perm_alphabet ht hx hct).length_eq, List.length_map]
    rw [length_bitsOf_of_one ht hx hct h1]
    exact length_le_length_flatMap hg.ne_nil
  · have hcost : (ct.bitsOf x).length = t.innerSum := by
      rw [length_bitsOf_eq_sum hw (es := t.entries []) (fun e he => (hof.mem_of_two_le h2).2 he)
        (by rwa [HTree.map_fst_entries])]
      have := HTree.sum_entries (fun i k a => freq_of_leaf ht hne i k a) hat hweighted []
      simpa using this
    rw [hcost, ← costOf_codePairs]
    exact innerSum_le_costOf ht hne hat (weightsOf_codePairs x g) hg.kraft_le

/-- The codes of a text's table are a code for it. -/
theorem isCodeFor_codeD (ht : RefinesFrequency tie) (hx : x ≠ []) (hct : tableFor tie x = some ct) :
    IsCodeFor x ct.codeD := by
  obtain ⟨hw, -, -, hlengths, hpfree, -⟩ := tableLegal_of_tableFor ht hx hct
  have hmem : ∀ a ∈ x, (a, ct.codeD a) ∈ ct := by
    intro a ha
    obtain ⟨c, hc⟩ := (has_iff_of_tableFor ht hx hct a).2 ha
    rwa [CodeTable.codeD_of_mem hw hc]
  exact ⟨fun a ha => List.ne_nil_of_length_pos (hlengths _ (hmem a ha)).1,
    fun a ha b hb hab => hpfree _ (hmem a ha) _ (hmem b hb) hab⟩

/-- Exchanging two codes of a text's table would not save a bit, so the more frequent Symbol has a code that is no
longer (R122 (e)). -/
theorem length_codeD_le_of_count_lt (ht : RefinesFrequency tie) (hx : x ≠ []) (hct : tableFor tie x = some ct)
    {a b : Symbol} (ha : a ∈ x) (hb : b ∈ x) (hlt : x.count b < x.count a) :
    (ct.codeD a).length ≤ (ct.codeD b).length := by
  have hne : a ≠ b := by rintro rfl; exact lt_irrefl _ hlt
  have hle := length_bitsOf_le ht hx hct ((isCodeFor_codeD ht hx hct).swap ha hb)
  obtain ⟨rest, hown, hswapped⟩ := length_flatMap_swap ct.codeD ha hb hne
  rw [CodeTable.bitsOf_eq, hown, hswapped] at hle
  by_contra hgt
  have := mul_add_mul_lt_mul_add_mul hlt (Nat.lt_of_not_le hgt)
  omega

end

/-! ## Every tie-break order (R124) -/

/-- Settles O30: the tables of two orders each need no more bits than the other. -/
theorem everyTieOrderIsAsGood : Obligations.EveryTieOrderIsAsGood := by
  intro tie x ht hx
  obtain ⟨ct, hct⟩ := exists_tableFor ht hx
  obtain ⟨ct', hct'⟩ := exists_tableFor refinesFrequency_tie hx
  obtain ⟨-, -, -, hlengths, hpfree, -⟩ := tableLegal_of_tableFor ht hx hct
  refine ⟨ct, ct', hct, hct', has_iff_of_tableFor ht hx hct, hpfree, hlengths, kraftSum_of_two_le ht hx hct,
    le_antisymm ?_ ?_⟩
  · exact length_bitsOf_le ht hx hct (isCodeFor_codeD refinesFrequency_tie hx hct')
  · exact length_bitsOf_le refinesFrequency_tie hx hct' (isCodeFor_codeD ht hx hct)

/-- Settles O55: the table is legal, so the scan takes the codes one by one. -/
theorem everyTieOrderRoundTrips : Obligations.EveryTieOrderRoundTrips := by
  intro tie x ht hx
  obtain ⟨ct, hct⟩ := exists_tableFor ht hx
  obtain ⟨hw, -, -, hlengths, hpfree, -⟩ := tableLegal_of_tableFor ht hx hct
  refine ⟨ct, hct, ?_⟩
  have := scan_bitsOf hpfree hw (fun e he => List.ne_nil_of_length_pos (hlengths e he).1)
    (fun a ha => (has_iff_of_tableFor ht hx hct a).2 ha) [] []
  rwa [List.append_nil] at this

end Sys2Proof.Machine
end

section
/-!
PROOF. `COMPRESS` (spec/40_encoder.md R100, R119 to R123, R128 to R132): its two outcomes, and what its table and its
output are.
-/

namespace Sys2Proof.Machine

/-! ## The outcome -/

/-- A `COMPRESS` that succeeds leaves the table of the trimmed input (R100). -/
theorem tableFor_compress {s : State} (hx : s.trimmedInput ≠ []) :
    tableFor Config.tie s.trimmedInput = some (compress s).ct := by
  obtain ⟨ct, hct⟩ := exists_tableFor refinesFrequency_tie hx
  obtain ⟨hcompress, -⟩ := compress_result hx hct
  rw [hct, hcompress]

/-- Settles O24: the second of the two outcomes of `COMPRESS`. -/
theorem compressOfANonemptyText : Obligations.CompressOfANonemptyText := by
  intro s hx
  rcases compress_cases s with ⟨h0, -⟩ | ⟨-, u, ct, hct, hu, -, -, -, e⟩
  · exact absurd h0 hx
  obtain ⟨h1, h2, h3⟩ := compress_result hx hct
  refine ⟨compress s, ct, rfl, hct, h1, h2, has_iff_of_tableFor refinesFrequency_tie hx hct, h3, ?_⟩
  rw [e]
  exact ⟨rfl, hu.err, rfl, rfl, hu.ibuf, hu.ilen, hu.script, hu.seen⟩

theorem compress_err_cases (s : State) : (compress s).err = .none ∨ (compress s).err = .emptyAlphabet := by
  rcases compress_cases s with ⟨-, u, -, e⟩ | ⟨-, u, ct, -, hu, -, -, -, e⟩
  · rw [e]; exact .inr rfl
  · rw [e]; exact .inl hu.err

/-- Settles O25: the first of the two outcomes of `COMPRESS` is a raise, and the second is no error. -/
theorem compressOfABlankText : Obligations.CompressOfABlankText := by
  refine ⟨fun s => ⟨compress s, rfl, compress_err_cases s⟩, fun s h0 => ?_⟩
  rcases compress_cases s with ⟨-, u, hu, e⟩ | ⟨hx, -⟩
  · exact ⟨u.raise .emptyAlphabet, congrArg Host.Outcome.next e, rfl, hu.done, rfl, fun _ => rfl, hu.ct, hu.rct,
      hu.tableValid, hu.ibuf, hu.ilen, hu.script, hu.seen⟩
  · exact absurd h0 hx

/-- Settles O26: the trimmed input decides between the outcomes and gives the table and the output. -/
theorem compressDependsOnTheInputOnly : Obligations.CompressDependsOnTheInputOnly := by
  intro s s' hin
  have htrim : s.trimmedInput = s'.trimmedInput := by
    rw [trimmedInput_eq_rdropWhile, trimmedInput_eq_rdropWhile, hin]
  by_cases hx : s.trimmedInput = []
  · have hblank : ∀ {u : State}, u.trimmedInput = [] → exec .compress u = .next ((counted u).raise .emptyAlphabet) :=
      fun h => congrArg Host.Outcome.next (compress_blank h)
    exact ⟨_, _, hblank hx, hblank (htrim ▸ hx), rfl, rfl, nofun⟩
  · obtain ⟨t, ct, ht, htab, hct, hrct, -, ⟨holen, hobuf⟩, hdone, herr, hvalid, -⟩ := compressOfANonemptyText s hx
    obtain ⟨t', ct', ht', htab', hct', hrct', -, ⟨holen', hobuf'⟩, hdone', herr', hvalid', -⟩ :=
      compressOfANonemptyText s' (htrim ▸ hx)
    obtain rfl : ct = ct' := Option.some.inj ((htrim ▸ htab).symm.trans htab')
    rw [htrim] at holen hobuf
    exact ⟨t, t', ht, ht', herr.trans herr'.symm, hdone.trans hdone'.symm, fun _ => ⟨hct.trans hct'.symm,
      hrct.trans hrct'.symm, hvalid.trans hvalid'.symm, holen.trans holen'.symm, hobuf.trans hobuf'.symm⟩⟩

/-! ## The table -/

/-- Settles O21: the table of one Symbol has one entry, its code `"0"`. -/
theorem oneSymbolGetsCodeZero : Obligations.OneSymbolGetsCodeZero := by
  intro s a hx hall
  have hct := tableFor_compress hx
  obtain ⟨-, hrct, hres⟩ := compress_result hx hct
  obtain ⟨hw, hne, -, -, -, -, hzero, -⟩ := tableLegal_of_tableFor refinesFrequency_tie hx hct
  have hentry : ∀ e ∈ (compress s).ct, e.1 = a := fun e he =>
    hall _ ((has_iff_of_tableFor refinesFrequency_tie hx hct e.1).1 ⟨e.2, he⟩)
  have hone : (compress s).ct.length = 1 := by
    rw [length_of_tableFor refinesFrequency_tie hx hct, List.eq_replicate_of_mem hall]
    simp [List.toFinset_replicate_of_ne_zero, hx]
  have htable : (compress s).ct = [(a, [false])] := by
    obtain ⟨e, he⟩ := List.length_eq_one_iff.1 hone
    have hmem : e ∈ (compress s).ct := he ▸ List.mem_singleton_self e
    rw [he, ← hentry e hmem, ← hzero hone e hmem]
  have hbits : (compress s).ct.bitsOf s.trimmedInput = List.replicate s.trimmedInput.length false := by
    rw [htable, CodeTable.bitsOf_eq, List.eq_replicate_of_mem hall]
    simp [CodeTable.codeD, CodeTable.code?, List.flatMap_replicate]
  rw [hbits, List.length_replicate] at hres
  exact ⟨compress s, rfl, htable, by rw [hrct, htable]; rfl, hres⟩

/-- Settles O27: the table is legal, has each Symbol once, and its tree is full. -/
theorem compressCodesArePrefixFree : Obligations.CompressCodesArePrefixFree := by
  intro s hx
  have hct := tableFor_compress hx
  obtain ⟨-, -, -, hlengths, hpfree, -⟩ := tableLegal_of_tableFor refinesFrequency_tie hx hct
  exact ⟨compress s, rfl, length_of_tableFor refinesFrequency_tie hx hct, hpfree, hlengths,
    kraftSum_of_two_le refinesFrequency_tie hx hct, kraftSum_of_one refinesFrequency_tie hx hct⟩

theorem bits8_injective : Function.Injective bits8 := fun v w h =>
  BitVec.eq_of_toNat_eq (by rw [← val_bits8, h, val_bits8])

/-- The bytes themselves are a code, of eight bits for each Symbol. -/
theorem isCodeFor_bits8 (x : List Symbol) : IsCodeFor x bits8 where
  ne_nil _ _ := nofun
  prefixFree _ _ _ _ hne hpre := hne (bits8_injective (hpre.eq_of_length rfl))

/-- A text is coded in no more bits than its bytes have. -/
theorem length_bitsOf_le_eight_mul {tie : Config.Tie} (ht : RefinesFrequency tie) {x : List Symbol} (hx : x ≠ [])
    {ct : CodeTable} (hct : tableFor tie x = some ct) : (ct.bitsOf x).length ≤ 8 * x.length := by
  rw [← length_flatMap_bits8]
  exact length_bitsOf_le ht hx hct (isCodeFor_bits8 x)

/-- Settles O28: the table's own bits, summed by its entries, against those of any other code. -/
theorem compressIsOptimal : Obligations.CompressIsOptimal := by
  intro s hx
  have hct := tableFor_compress hx
  obtain ⟨hw, -⟩ := tableLegal_of_tableFor refinesFrequency_tie hx hct
  exact ⟨compress s, rfl,
    length_bitsOf_eq_sum hw (fun _ he => he) (map_fst_perm_alphabet refinesFrequency_tie hx hct),
    length_bitsOf_le_eight_mul refinesFrequency_tie hx hct, length_bitsOf_of_one refinesFrequency_tie hx hct,
    fun other hne hpfree => length_bitsOf_le refinesFrequency_tie hx hct ⟨hne, hpfree⟩⟩

/-- Settles O29: otherwise exchanging the two codes would save bits. -/
theorem frequentSymbolsGetNoLongerCodes : Obligations.FrequentSymbolsGetNoLongerCodes := by
  intro s hx
  have hct := tableFor_compress hx
  obtain ⟨hw, -⟩ := tableLegal_of_tableFor refinesFrequency_tie hx hct
  refine ⟨compress s, rfl, fun a ha b hb hlt => ?_⟩
  have hmem : ∀ e ∈ (compress s).ct, e.1 ∈ s.trimmedInput := fun e he =>
    (has_iff_of_tableFor refinesFrequency_tie hx hct e.1).1 ⟨e.2, he⟩
  have := length_codeD_le_of_count_lt refinesFrequency_tie hx hct (hmem a ha) (hmem b hb) hlt
  rwa [CodeTable.codeD_of_mem hw ha, CodeTable.codeD_of_mem hw hb] at this

/-! ## The output -/

/-- Header and padded bits together take `1 + ceil(L/8)` bytes (R128). -/
theorem length_toBytes_streamOf_eq (bits : BitString) :
    (toBytes (streamOf (padAmount bits.length) bits)).length = 1 + (bits.length + 7) / 8 := by
  have := length_toBytes_streamOf bits
  have := padAmount_lt bits.length
  omega

/-- Settles O31: a Symbol takes at least one bit, and at most eight on average. -/
theorem compressedLengthIsBounded : Obligations.CompressedLengthIsBounded := by
  intro s hx
  have hct := tableFor_compress hx
  obtain ⟨-, -, holen, -⟩ := compress_result hx hct
  rw [length_toBytes_streamOf_eq] at holen
  have hpos := List.length_pos_iff.2 hx
  have hlow : s.trimmedInput.length ≤ ((compress s).ct.bitsOf s.trimmedInput).length :=
    length_le_length_flatMap (isCodeFor_codeD refinesFrequency_tie hx hct).ne_nil
  have hhigh := length_bitsOf_le_eight_mul refinesFrequency_tie hx hct
  have hilen : s.trimmedInput.length ≤ s.ilen := by
    rw [State.trimmedInput, length_inputBytes]
    exact trimLen_le _ _
  exact ⟨compress s, rfl, holen, by omega, by omega, hilen⟩

end Sys2Proof.Machine
end

section
/-!
PROOF. The decoder's phases one by one (spec/41_decoder.md R142 to R150): what each writes, and where it raises.
-/

namespace Sys2Proof.Machine

/-- What a `raise` writes, and what it leaves (R176). -/
theorem raise_effect (k : ErrKind) (s : State) :
    (s.raise k).err = k ∧ (s.raise k).phase = .idle ∧ (s.raise k).done = s.done ∧ (s.raise k).outputUnspecified ∧
      (s.raise k).ibuf = s.ibuf ∧ (s.raise k).ilen = s.ilen ∧ (s.raise k).ct = s.ct ∧ (s.raise k).rct = s.rct ∧
      (s.raise k).tableValid = s.tableValid ∧ (s.raise k).script = s.script ∧ (s.raise k).seen = s.seen :=
  ⟨rfl, rfl, rfl, fun _ => rfl, rfl, rfl, rfl, rfl, rfl, rfl, rfl⟩

theorem dCheck_of_tableValid {s : State} (h : s.tableValid = true) : dCheck s = { s with phase := .dExpand } :=
  if_neg (by simp [h])

theorem dCheck_of_noTable {s : State} (h : s.tableValid = false) : dCheck s = s.raise .missingCodeTable := if_pos h

/-- Settles O32: the flag alone decides between going on and the raise. -/
theorem checkRaisesWithoutATable : Obligations.CheckRaisesWithoutATable := by
  refine fun s => ⟨dCheck s, rfl, dCheck_of_tableValid, fun h => ?_⟩
  rw [dCheck_of_noTable h]
  exact h ▸ raise_effect .missingCodeTable s

/-- Settles O33: `DBITS` is the input, byte by byte eight bits each. -/
theorem expandListsEveryBit : Obligations.ExpandListsEveryBit := by
  refine fun s => ⟨dExpand s, rfl, rfl, ?length, fun k hk => ?bit⟩
  case length =>
    rw [dExpand_dec, length_flatMap_bits8, length_input]
  case bit =>
    have hbyte : s.input[k / 8]? = some (s.ibufByte (k / 8)) := getElem?_inputBytes s (by omega)
    rw [dExpand_dec, getElem?_flatMap_bits8, hbyte, Option.map_some]

theorem dHdr_of_lt {s : State} (h : s.dec.dbits.length < 8) : dHdr s = s.raise .corruptPadding := if_pos h

/-- Settles O34: the header is the number that the first eight bits spell, where there are eight. -/
theorem headerIsTheFirstEightBits : Obligations.HeaderIsTheFirstEightBits := by
  refine fun s => ⟨dHdr s, rfl, fun hle => ?header, fun hlt => ?none⟩
  case header =>
    have hlen : (slice s.dec.dbits 0 8).length = 8 := by simp [slice, hle]
    rw [dHdr_of_le hle]
    refine ⟨rfl, val_lt_of_length hlen, fun k hk => ?_⟩
    rw [← testBit_val hlen hk]
    simp [slice, hk]
  case none =>
    rw [dHdr_of_lt hlt]
    exact raise_effect .corruptPadding s

theorem dropHeader_rest (s : State) : (dropHeader s).dec.rest = s.dec.dbits.drop 8 := by
  simp [slice]

theorem dropPadding_body (s : State) :
    (dropPadding s).dec.body = s.dec.rest.take (s.dec.rest.length - s.dec.pad) := by
  simp [slice]

theorem dStrip_of_le {s : State} (h : s.dec.pad ≤ s.dec.dbits.length - 8) :
    dStrip s = dropPadding (dropHeader s) := by
  rw [dStrip, if_neg]
  rw [dropHeader_rest, List.length_drop]
  omega

theorem dStrip_of_lt {s : State} (h : s.dec.dbits.length - 8 < s.dec.pad) :
    dStrip s = (dropHeader s).raise .corruptPadding := by
  rw [dStrip, if_pos]
  rwa [dropHeader_rest, List.length_drop]

/-- Settles O35: `DBITS` falls into the header, `BODY` and the bits dropped, where `PAD` allows it. -/
theorem stripDropsHeaderAndPadding : Obligations.StripDropsHeaderAndPadding := by
  refine fun s => ⟨dStrip s, rfl, fun hle => ?strip, fun hlt => ?raise⟩
  case strip =>
    have hrest : (dropPadding (dropHeader s)).dec.rest = s.dec.dbits.drop 8 := dropHeader_rest s
    have hbody := dropPadding_body (dropHeader s)
    rw [dropHeader_rest, List.length_drop] at hbody
    rw [dStrip_of_le hle]
    refine ⟨rfl, ?_, ?_, (s.dec.dbits.drop 8).drop (s.dec.dbits.length - 8 - s.dec.pad), ?_, ?_⟩
    · rw [hrest, List.take_append_drop]
    · rw [hrest, List.length_drop]
    · rw [hrest, hbody]
      exact (List.take_append_drop _ _).symm
    · rw [List.length_drop, List.length_drop]
      omega
  case raise =>
    rw [dStrip_of_lt hlt]
    exact raise_effect .corruptPadding (dropHeader s)

end Sys2Proof.Machine
end

section
/-!
PROOF. The scan (spec/41_decoder.md R152 to R156, R165): when it leaves no candidate, what a candidate left over is,
and what the phase `D_SCAN` makes of both.
-/

namespace Sys2Proof.Machine

/-! ## The loop (R152) -/

section
variable (rct : ReverseTable)

theorem scan_cons_of_symbol {bit : Bit} {buf : BitString} {a : Symbol} (h : rct.symbol? (buf ++ [bit]) = some a)
    (bits : BitString) (out : List Symbol) : scan rct (bit :: bits) buf out = scan rct bits [] (out ++ [a]) := by
  simp only [scan, h]

theorem scan_cons_of_none {bit : Bit} {buf : BitString} (h : rct.symbol? (buf ++ [bit]) = none)
    (bits : BitString) (out : List Symbol) : scan rct (bit :: bits) buf out = scan rct bits (buf ++ [bit]) out := by
  simp only [scan, h]

/-- A scan may be stopped after any bit and resumed from the candidate and the Symbols it has then. -/
theorem scan_append (bits more buf : BitString) (out : List Symbol) :
    scan rct (bits ++ more) buf out = scan rct more (scan rct bits buf out).1 (scan rct bits buf out).2 := by
  induction bits generalizing buf out with
  | nil => rfl
  | cons bit bits ih =>
    rw [List.cons_append]
    cases h : rct.symbol? (buf ++ [bit]) with
    | none => rw [scan_cons_of_none rct h, scan_cons_of_none rct h, ih]
    | some a => rw [scan_cons_of_symbol rct h, scan_cons_of_symbol rct h, ih]

/-- What has been emitted stays. -/
theorem prefix_scan_snd (bits buf : BitString) (out : List Symbol) : out <+: (scan rct bits buf out).2 := by
  induction bits generalizing buf out with
  | nil => exact List.prefix_rfl
  | cons bit bits ih =>
    cases h : rct.symbol? (buf ++ [bit]) with
    | none => rw [scan_cons_of_none rct h]; exact ih _ _
    | some a => rw [scan_cons_of_symbol rct h]; exact (List.prefix_append _ _).trans (ih _ _)

end

/-! ## What parses, and what is left over (R154, R165) -/

section
variable {ct : CodeTable}

/-- A scan cuts its bits into the codes of the Symbols emitted and a candidate no beginning of which is a code. -/
theorem scan_from_start (hw : ct.wf) (hp : ct.prefixFree) (bits : BitString) :
    (∀ a ∈ (scan (invert ct) bits [] []).2, ct.has a) ∧
      bits = ct.bitsOf (scan (invert ct) bits [] []).2 ++ (scan (invert ct) bits [] []).1 ∧
      ∀ n, 0 < n → n ≤ (scan (invert ct) bits [] []).1.length →
        ReverseTable.symbol? (invert ct) ((scan (invert ct) bits [] []).1.take n) = none := by
  obtain ⟨x, hout, hresult⟩ := scan_result hp hw bits [] [] fun n hn hle => absurd hle (Nat.not_le.2 hn)
  rw [List.nil_append] at hout hresult
  rwa [hout]

/-- A scan leaves no candidate exactly if its bits are a sequence of codes, and then it gives their Symbols. -/
theorem scan_eq_iff_parses (hw : ct.wf) (hp : ct.prefixFree) (hc : ∀ e ∈ ct, e.2 ≠ []) {bits : BitString}
    {x : List Symbol} : scan (invert ct) bits [] [] = ([], x) ↔ ct.Parses x bits := by
  constructor
  · intro h
    obtain ⟨hhas, hbits, -⟩ := scan_from_start hw hp bits
    rw [h, List.append_nil] at hbits
    exact ⟨by rwa [h] at hhas, hbits⟩
  · rintro ⟨hhas, rfl⟩
    have := scan_bitsOf hp hw hc hhas [] []
    rwa [List.append_nil] at this

variable {rct : ReverseTable}

theorem TableLegal.ne_nil (h : TableLegal ct rct) : ∀ e ∈ ct, e.2 ≠ [] := by
  obtain ⟨-, -, -, hlengths, -⟩ := h
  exact fun e he => List.ne_nil_of_length_pos (hlengths e he).1

theorem TableLegal.scan_eq_iff_parses (h : TableLegal ct rct) {bits : BitString} {x : List Symbol} :
    scan rct bits [] [] = ([], x) ↔ ct.Parses x bits := by
  obtain ⟨hw, -, -, -, hp, rfl, -⟩ := id h
  exact Machine.scan_eq_iff_parses hw hp h.ne_nil

/-- Each Symbol takes at least one bit (R158). -/
theorem CodeTable.Parses.length_le (hw : ct.wf) (hc : ∀ e ∈ ct, e.2 ≠ []) {x : List Symbol} {bits : BitString}
    (h : ct.Parses x bits) : x.length ≤ bits.length := by
  obtain ⟨hhas, rfl⟩ := h
  refine length_le_length_flatMap fun a ha => ?_
  obtain ⟨c, hmem⟩ := hhas a ha
  show ct.codeD a ≠ []
  rw [CodeTable.codeD_of_mem hw hmem]
  exact hc _ hmem

/-- No beginning of what is left over is a code (R152). -/
theorem TableLegal.not_mem_of_leftover (h : TableLegal ct rct) (bits : BitString) {n : Nat} (hn : 0 < n)
    (hle : n ≤ (scan rct bits [] []).1.length) (a : Symbol) : (a, (scan rct bits [] []).1.take n) ∉ ct := by
  obtain ⟨hw, -, -, -, hp, rfl, -⟩ := h
  obtain ⟨-, -, hnone⟩ := scan_from_start hw hp bits
  intro hmem
  rw [← ReverseTable.symbol?_eq_some hp hw, hnone n hn hle] at hmem
  cases hmem

end

/-- Settles O44: the bits left over, continued at will, begin with one code, which is none of their own beginnings. -/
theorem leftoverIsAProperPrefix : Obligations.LeftoverIsAProperPrefix := by
  intro ct rct body h hne
  obtain ⟨-, -, -, -, -, -, hzero, hcomplete⟩ := id h
  have hleft := fun n hn hle => h.not_mem_of_leftover (n := n) body hn hle
  obtain ⟨buf, hbuf⟩ : ∃ buf, buf = (scan rct body [] []).1 := ⟨_, rfl⟩
  rw [← hbuf] at hne hleft ⊢
  refine ⟨fun h2 => ?two, fun h1 => ?one⟩
  case two =>
    obtain ⟨e, ⟨he, hstream⟩, -⟩ := hcomplete h2 fun i => buf.getD i false
    have hown : buf = (List.range buf.length).map fun i => buf.getD i false :=
      List.ext_getElem (by simp) fun i hi _ => by simp [hi]
    have hlt : buf.length < e.2.length := by
      by_contra hle
      have hpre := prefix_total_of_stream hstream hown (Nat.le_of_not_lt hle)
      refine hleft e.2.length (List.length_pos_iff.2 (h.ne_nil e he)) hpre.length_le e.1 ?_
      rwa [← List.prefix_iff_eq_take.1 hpre]
    exact ⟨e, he, prefix_total_of_stream hown hstream hlt.le, hlt⟩
  case one =>
    obtain ⟨e, rfl⟩ := List.length_eq_one_iff.1 h1
    have he : e.2 = [false] := hzero h1 e List.mem_cons_self
    cases buf with
    | nil => exact absurd rfl hne
    | cons bit r =>
      cases bit with
      | true => rfl
      | false => exact absurd (by simp [Prod.ext_iff, he]) (hleft 1 Nat.one_pos (by simp) e.1)

/-! ## The phase `D_SCAN` -/

theorem dScan_of_nil {s : State} (h : (scan s.rct s.dec.body [] []).1 = []) :
    dScan s = commitDecompress (scanBody s) :=
  if_neg (not_not.2 h)

theorem dScan_of_ne_nil {s : State} (h : (scan s.rct s.dec.body [] []).1 ≠ []) :
    dScan s = (scanBody s).raise .corruptPadding :=
  if_pos h

theorem dScan_frame (s : State) :
    (dScan s).ibuf = s.ibuf ∧ (dScan s).ilen = s.ilen ∧ (dScan s).ct = s.ct ∧ (dScan s).rct = s.rct ∧
      (dScan s).tableValid = s.tableValid ∧ (dScan s).script = s.script ∧ (dScan s).seen = s.seen := by
  by_cases h : (scan s.rct s.dec.body [] []).1 = []
  · rw [dScan_of_nil h]; exact ⟨rfl, rfl, rfl, rfl, rfl, rfl, rfl⟩
  · rw [dScan_of_ne_nil h]; exact ⟨rfl, rfl, rfl, rfl, rfl, rfl, rfl⟩

/-- The commit of a scan that leaves no candidate (R156). -/
theorem dScan_result {s : State} (h : (scan s.rct s.dec.body [] []).1 = []) :
    (dScan s).done = true ∧ (dScan s).err = s.err ∧ (dScan s).resultIs (scan s.rct s.dec.body [] []).2 := by
  rw [dScan_of_nil h]; exact ⟨rfl, rfl, rfl, rfl⟩

/-- The raise of a scan that leaves one (R154). -/
theorem dScan_error {s : State} (h : (scan s.rct s.dec.body [] []).1 ≠ []) :
    (dScan s).done = s.done ∧ (dScan s).err = .corruptPadding ∧ (dScan s).outputUnspecified := by
  rw [dScan_of_ne_nil h]; exact ⟨rfl, rfl, fun _ => rfl⟩

/-- Settles O36: the scan leaves no candidate exactly if `BODY` parses. -/
theorem scanDecodesExactlyWhatParses : Obligations.ScanDecodesExactlyWhatParses := by
  intro s ct hrct hw hp hc
  obtain ⟨hibuf, hilen, hct, hrct', hvalid, hscript, hseen⟩ := dScan_frame s
  have hparse (x) : scan s.rct s.dec.body [] [] = ([], x) ↔ ct.Parses x s.dec.body :=
    hrct ▸ scan_eq_iff_parses hw hp hc
  refine ⟨dScan s, rfl, dScan_phase s, hibuf, hilen, hct, hrct', hvalid, hscript, hseen, fun x hx => ?_, fun hno => ?_⟩
  · have hscan := (hparse x).2 hx
    have := dScan_result (congrArg Prod.fst hscan)
    rwa [hscan] at this
  · exact dScan_error fun hnil => hno _ ((hparse _).1 (Prod.ext hnil rfl))

/-- Settles O37: the loop bit by bit, and the two ends of the phase. -/
theorem scanFollowsItsLoop : Obligations.ScanFollowsItsLoop :=
  ⟨fun s => ⟨dScan s, rfl, dScan_result, dScan_error⟩, fun rct _ bits _ out =>
    ⟨rfl, fun _ h => scan_cons_of_symbol rct h bits out, fun h => scan_cons_of_none rct h bits out⟩⟩

end Sys2Proof.Machine
end

section
/-!
PROOF. `DECOMPRESS` (spec/41_decoder.md R140, R141, R156 to R162, R167): one function of the input and the table says
how it ends; each statement about the command is then one about that function.
-/

namespace Sys2Proof.Machine

/-! ## How it ends -/

/-- What a `DECOMPRESS` makes of the input and the table held: the first error of R167 whose condition holds, else the
Symbols of the scan. -/
def State.decoded (s : State) : Except ErrKind (List Symbol) :=
  if s.tableValid = false then .error .missingCodeTable
  else if s.ilen = 0 then .error .corruptPadding
  else if 8 * (s.ilen - 1) < (s.ibufByte 0).toNat then .error .corruptPadding
  else if (scan s.rct s.body [] []).1 ≠ [] then .error .corruptPadding
  else .ok (scan s.rct s.body [] []).2

/-- A `DECOMPRESS` raises the error or commits the Symbols that `decoded` gives. -/
theorem decompress_decoded (s : State) : ∃ u, Inside s u ∧
    ((∃ k, s.decoded = .error k ∧ k ≠ .none ∧ decompress s = u.raise k) ∨
      (s.decoded = .ok u.dec.out ∧ decompress s = commitDecompress u)) := by
  obtain ⟨u, hu, h⟩ := decompress_cases s
  refine ⟨u, hu, ?_⟩
  rcases h with ⟨hv, e⟩ | ⟨hv, h0, e⟩ | ⟨hv, h0, hpad, e⟩ | ⟨hv, h0, hpad, hbuf, e⟩ | ⟨hv, h0, hpad, hbuf, hout, e⟩
  · exact .inl ⟨.missingCodeTable, by simp [State.decoded, hv], nofun, e⟩
  · exact .inl ⟨.corruptPadding, by simp [State.decoded, hv, h0], nofun, e⟩
  · exact .inl ⟨.corruptPadding, by simp [State.decoded, hv, h0, hpad], nofun, e⟩
  · exact .inl ⟨.corruptPadding, by simp [State.decoded, hv, h0, hpad.not_gt, hbuf], nofun, e⟩
  · exact .inr ⟨by simp [State.decoded, hv, h0, hpad.not_gt, hbuf, hout], e⟩

section
variable {s : State}

theorem decompress_of_error {k : ErrKind} (h : s.decoded = .error k) :
    (decompress s).err = k ∧ (decompress s).done = false ∧ (decompress s).outputUnspecified ∧ k ≠ .none := by
  obtain ⟨u, hu, ⟨k', hk, hne, e⟩ | ⟨hok, -⟩⟩ := decompress_decoded s
  · obtain rfl : k = k' := Except.error.inj (h.symm.trans hk)
    rw [e]
    exact ⟨rfl, hu.done, fun _ => rfl, hne⟩
  · rw [h] at hok; cases hok

theorem decompress_of_ok {x : List Symbol} (h : s.decoded = .ok x) :
    (decompress s).err = .none ∧ (decompress s).done = true ∧ (decompress s).resultIs x := by
  obtain ⟨u, hu, ⟨k, hk, -, -⟩ | ⟨hok, e⟩⟩ := decompress_decoded s
  · rw [h] at hk; cases hk
  · obtain rfl : x = u.dec.out := Except.ok.inj (h.symm.trans hok)
    rw [e]
    exact ⟨hu.err, rfl, rfl, rfl⟩

end

/-- What outlives a `DECOMPRESS` unchanged (R162). -/
theorem decompress_frame (s : State) :
    (decompress s).ibuf = s.ibuf ∧ (decompress s).ilen = s.ilen ∧ (decompress s).ct = s.ct ∧
      (decompress s).rct = s.rct ∧ (decompress s).tableValid = s.tableValid ∧ (decompress s).script = s.script ∧
      (decompress s).seen = s.seen := by
  obtain ⟨u, hu, ⟨k, -, -, e⟩ | ⟨-, e⟩⟩ := decompress_decoded s
  all_goals rw [e]; exact ⟨hu.ibuf, hu.ilen, hu.ct, hu.rct, hu.tableValid, hu.script, hu.seen⟩

/-- Settles O39: neither the raise nor the commit touches them. -/
theorem decompressLeavesInputAndTable : Obligations.DecompressLeavesInputAndTable :=
  fun s => ⟨decompress s, rfl, decompress_frame s⟩

/-- Settles O38: the branches of `decoded` are the conditions of R167 in their order. -/
theorem decompressErrorsInOrder : Obligations.DecompressErrorsInOrder := by
  intro s
  obtain ⟨hibuf, hilen, hct, hrct, hvalid, -⟩ := decompress_frame s
  have herror {k : ErrKind} (h : s.decoded = .error k) :
      (decompress s).err = k ∧ (decompress s).done = false ∧ (decompress s).outputUnspecified := by
    obtain ⟨herr, hdone, hout, -⟩ := decompress_of_error h
    exact ⟨herr, hdone, hout⟩
  refine ⟨decompress s, rfl, decompress_phase s, hibuf, hilen, hct, hrct, hvalid, ?_⟩
  show if s.tableValid = false then _ else if s.ilen = 0 then _ else if 8 * (s.ilen - 1) < (s.ibufByte 0).toNat then _
    else if (scan s.rct s.body [] []).1 ≠ [] then _ else _
  split_ifs with hv h0 hpad hbuf
  · exact herror (by rw [State.decoded, if_pos hv])
  · exact herror (by rw [State.decoded, if_neg hv, if_pos h0])
  · exact herror (by rw [State.decoded, if_neg hv, if_neg h0, if_pos hpad])
  · exact herror (by rw [State.decoded, if_neg hv, if_neg h0, if_neg hpad, if_pos hbuf])
  · have hok : s.decoded = .ok (scan s.rct s.body [] []).2 := by
      rw [State.decoded, if_neg hv, if_neg h0, if_neg hpad, if_neg hbuf]
    exact decompress_of_ok hok

/-! ## What it depends on (R141, R160) -/

/-- The bits scanned, as a piece of the input's bits: the last `PAD` are dropped, then the first eight. -/
theorem State.body_eq_drop (s : State) :
    s.body = ((s.input.flatMap bits8).take (8 * s.ilen - (s.ibufByte 0).toNat)).drop 8 := by
  have hrest : (s.input.drop 1).flatMap bits8 = (s.input.flatMap bits8).drop 8 := by
    cases s.input with
    | nil => rfl
    | cons b bs => rfl
  rw [State.body, hrest, List.drop_take, List.length_drop, length_flatMap_bits8, length_input]
  refine congrArg (fun n => ((s.input.flatMap bits8).drop 8).take n) ?_
  omega

theorem ibufByte_zero_of_input_eq {s s' : State} (h : s.input = s'.input) (h0 : s.ilen ≠ 0) :
    s.ibufByte 0 = s'.ibufByte 0 := by
  have hlen : s.ilen = s'.ilen := by rw [← length_input, h, length_input]
  exact (List.cons.inj ((input_cons h0).symm.trans (h.trans (input_cons (hlen ▸ h0))))).1

/-- The outcome depends on the table, and with a header byte on that and on the bits scanned. -/
theorem decoded_congr {s s' : State} (hv : s.tableValid = s'.tableValid) (hr : s.rct = s'.rct)
    (hl : s.ilen = s'.ilen) (h : s.ilen ≠ 0 → s.ibufByte 0 = s'.ibufByte 0 ∧ s.body = s'.body) :
    s.decoded = s'.decoded := by
  by_cases h0 : s.ilen = 0
  · have h0' : s'.ilen = 0 := hl ▸ h0
    simp only [State.decoded, hv, h0, h0', if_true]
  · obtain ⟨hheader, hbody⟩ := h h0
    rw [State.decoded, State.decoded, hv, hr, hl, hheader, hbody]

/-- Two states from which `DECOMPRESS` has the same outcome end with the same flags and, on success, output. -/
theorem decompress_agree {s s' : State} (h : s.decoded = s'.decoded) :
    ∃ t t', exec .decompress s = .next t ∧ exec .decompress s' = .next t' ∧ t.err = t'.err ∧ t.done = t'.done ∧
      (t.err = .none → t.olen = t'.olen ∧ t.obuf = t'.obuf) := by
  refine ⟨decompress s, decompress s', rfl, rfl, ?_⟩
  cases hs : s.decoded with
  | error k =>
    obtain ⟨herr, hdone, -, hk⟩ := decompress_of_error hs
    obtain ⟨herr', hdone', -⟩ := decompress_of_error (h ▸ hs)
    exact ⟨herr.trans herr'.symm, hdone.trans hdone'.symm, fun hnone => absurd (herr.symm.trans hnone) hk⟩
  | ok x =>
    obtain ⟨herr, hdone, holen, hobuf⟩ := decompress_of_ok hs
    obtain ⟨herr', hdone', holen', hobuf'⟩ := decompress_of_ok (h ▸ hs)
    exact ⟨herr.trans herr'.symm, hdone.trans hdone'.symm, fun _ => ⟨holen.trans holen'.symm, hobuf.trans hobuf'.symm⟩⟩

/-- Settles O40: the input gives its length, the header and the bits scanned. -/
theorem decompressDependsOnInputAndTableOnly : Obligations.DecompressDependsOnInputAndTableOnly := by
  intro s s' hin hv hr
  have hlen : s.ilen = s'.ilen := by rw [← length_input, hin, length_input]
  refine decompress_agree (decoded_congr hv hr hlen fun h0 => ?_)
  have hheader := ibufByte_zero_of_input_eq hin h0
  exact ⟨hheader, by rw [State.body_eq_drop, State.body_eq_drop, hin, hlen, hheader]⟩

/-- Settles O41: the bits scanned are cut from those before the padding. -/
theorem paddingBitsAreNotLookedAt : Obligations.PaddingBitsAreNotLookedAt := by
  intro s s' hv hr hl hheader hbits
  refine decompress_agree (decoded_congr hv hr hl fun _ => ⟨hheader, ?_⟩)
  simp only [length_flatMap_bits8, length_input] at hbits
  rw [State.body_eq_drop, State.body_eq_drop, hbits, hl, hheader]

/-! ## Its output (R158, R161) -/

section
variable {s : State}

/-- With a table, a header byte and a header that fits, the scan decides. -/
theorem decoded_of_fits (hv : s.tableValid = true) (h0 : s.ilen ≠ 0)
    (hpad : (s.ibufByte 0).toNat ≤ 8 * (s.ilen - 1)) :
    s.decoded = if (scan s.rct s.body [] []).1 ≠ [] then .error .corruptPadding
      else .ok (scan s.rct s.body [] []).2 := by
  rw [State.decoded, if_neg (by simp [hv]), if_neg h0, if_neg hpad.not_gt]

/-- What a success says of the input. -/
theorem scan_of_decoded_ok {x : List Symbol} (h : s.decoded = .ok x) :
    (s.ibufByte 0).toNat ≤ 8 * (s.ilen - 1) ∧ scan s.rct s.body [] [] = ([], x) := by
  rw [State.decoded] at h
  split_ifs at h with hv h0 hpad hbuf
  exact ⟨Nat.le_of_not_lt hpad, Prod.ext (not_not.1 hbuf) (Except.ok.inj h)⟩

end

theorem State.length_body (s : State) : s.body.length = 8 * (s.ilen - 1) - (s.ibufByte 0).toNat := by
  rw [State.body_eq_drop, List.length_drop, List.length_take, length_flatMap_bits8, length_input]
  omega

/-- Settles O42: no bit is left to scan. -/
theorem emptyBodySucceeds : Obligations.EmptyBodySucceeds := by
  intro s hv h1 hpad
  have hbody : s.body = [] := List.length_eq_zero_iff.1 (by rw [State.length_body]; omega)
  have hok : s.decoded = .ok [] := by
    rw [decoded_of_fits hv (by omega) hpad.le, hbody]
    rfl
  obtain ⟨herr, hdone, holen, hobuf⟩ := decompress_of_ok hok
  exact ⟨decompress s, rfl, herr, hdone, holen, fun i => by rw [hobuf]; rfl⟩

/-- Settles O43: each Symbol of the output takes one of the bits scanned. -/
theorem decompressedLengthIsBounded : Obligations.DecompressedLengthIsBounded := by
  intro s hlegal
  refine ⟨decompress s, rfl, fun hnone => ?_⟩
  cases hs : s.decoded with
  | error k =>
    obtain ⟨herr, -, -, hk⟩ := decompress_of_error hs
    exact absurd (herr.symm.trans hnone) hk
  | ok x =>
    obtain ⟨-, -, holen, -⟩ := decompress_of_ok hs
    obtain ⟨hpad, hscan⟩ := scan_of_decoded_ok hs
    have hle := (hlegal.scan_eq_iff_parses.1 hscan).length_le hlegal.1 hlegal.ne_nil
    rw [State.length_body] at hle
    omega

end Sys2Proof.Machine
end

section
/-!
PROOF. `DECOMPRESS` of what `COMPRESS` made (spec/41_decoder.md R163, R164): the bytes of a text's stream, whole or cut
after some byte, give back the coded bits up to the cut, so the scan gives the text or a beginning of it.
-/

namespace Sys2Proof.Machine

/-! ## The input is a beginning of a stream -/

/-- On the first bytes of a stream `DECOMPRESS` reads the stream's header and scans its coded bits, less the eight for
each byte that is missing. -/
theorem body_of_stream {s : State} {bits : BitString} (h0 : s.ilen ≠ 0)
    (hin : s.input <+: toBytes (streamOf (padAmount bits.length) bits)) :
    (s.ibufByte 0).toNat = padAmount bits.length ∧
      s.body = bits.take (8 * s.ilen - 8 - padAmount bits.length) := by
  have hheader : (s.ibufByte 0).toNat = padAmount bits.length := by
    have hzero : s.input[0]? = some (s.ibufByte 0) := getElem?_inputBytes s (Nat.pos_of_ne_zero h0)
    have hbyte := toBytes_streamOf_zero (padAmount bits.length) bits
    obtain ⟨cut, hcut⟩ := hin
    rw [← hcut, List.getElem?_append_left (List.getElem?_eq_some_iff.1 hzero).1, hzero, Option.some.injEq] at hbyte
    have := padAmount_lt bits.length
    rw [hbyte, BitVec.toNat_ofNat]
    omega
  have hlen := length_toBytes_streamOf bits
  have hle := hin.length_le
  rw [length_input] at hle
  obtain ⟨cut, hcut⟩ := hin
  have hbits : s.input.flatMap bits8 = (streamOf (padAmount bits.length) bits).take (8 * s.ilen) := by
    rw [← flatMap_bits8_toBytes _ _ ((length_streamOf _ _).trans hlen.symm), ← hcut, List.flatMap_append,
      List.take_left' (by rw [length_flatMap_bits8, length_input])]
  refine ⟨hheader, ?_⟩
  rw [State.body_eq_drop, hbits, hheader, List.take_take, min_eq_left (Nat.sub_le _ _), List.drop_take, streamOf,
    List.append_assoc, List.drop_left' (length_bits8 _), List.take_append_of_le_length (by omega)]
  refine congrArg bits.take ?_
  omega

/-! ## What a `COMPRESS` leaves -/

/-- The state holds the table and the output of a `COMPRESS` of this text. -/
structure Packed (t : State) (ct : CodeTable) (x : List Symbol) : Prop where
  tableValid : t.tableValid = true
  err : t.err = .none
  legal : TableLegal ct t.rct
  has : ∀ a ∈ x, ct.has a
  result : t.resultIs (toBytes (streamOf (padAmount (ct.bitsOf x).length) (ct.bitsOf x)))

theorem packed_compress {s : State} (hx : s.trimmedInput ≠ []) :
    Packed (compress s) (compress s).ct s.trimmedInput := by
  have htable := tableFor_compress hx
  obtain ⟨t, ct, ⟨⟩, htab, hct, hrct, hhas, hresult, -, herr, hvalid, -⟩ := compressOfANonemptyText s hx
  rw [hct]
  exact ⟨hvalid, herr, hrct ▸ tableLegal_of_tableFor refinesFrequency_tie hx htab, fun a => (hhas a).2, hresult⟩

section
variable {t : State} {ct : CodeTable} {x : List Symbol}

theorem Packed.parses (h : Packed t ct x) : ct.Parses x (ct.bitsOf x) := ⟨h.has, rfl⟩

theorem Packed.withScript (h : Packed t ct x) (r : List HostAction) : Packed { t with script := r } ct x :=
  ⟨h.tableValid, h.err, h.legal, h.has, h.result⟩

/-- A `READ` leaves the table and the output (R42). -/
theorem Packed.readResult (h : Packed t ct x) : Packed (hostAccess .readResult t) ct x :=
  ⟨h.tableValid, h.err, h.legal, h.has, h.result⟩

/-- `COPY` makes the output the input (R90). -/
theorem Packed.input_copy (h : Packed t ct x) :
    (hostAccess .copy t).input = toBytes (streamOf (padAmount (ct.bitsOf x).length) (ct.bitsOf x)) := by
  have : (hostAccess .copy t).input = t.resultRead := State.input_load _ _
  rw [this, State.resultRead_of_resultIs h.err h.result]

/-- After a `COPY` the whole stream is the input, so the scan gives the text (R163). -/
theorem Packed.decoded_copy (h : Packed t ct x) : (hostAccess .copy t).decoded = .ok x := by
  have hin := h.input_copy
  obtain ⟨u, hu⟩ : ∃ u, u = hostAccess .copy t := ⟨_, rfl⟩
  have hvalid : u.tableValid = true := hu ▸ h.tableValid
  have hrct : u.rct = t.rct := hu ▸ rfl
  rw [← hu] at hin ⊢
  have hlen := length_toBytes_streamOf (ct.bitsOf x)
  rw [← hin, length_input] at hlen
  obtain ⟨hheader, hbody⟩ := body_of_stream (s := u) (bits := ct.bitsOf x) (by omega) (hin ▸ List.prefix_rfl)
  have hall : u.body = ct.bitsOf x := by rw [hbody, List.take_of_length_le (by omega)]
  have hscan : scan u.rct u.body [] [] = ([], x) := by
    rw [hall, hrct]
    exact h.legal.scan_eq_iff_parses.2 h.parses
  rw [decoded_of_fits hvalid (by omega) (by omega), hscan]
  rfl

/-- A scan of the coded bits of a text, cut before the last one, that leaves no candidate has found a part of the
Symbols. -/
theorem Packed.scan_take (h : Packed t ct x) {n : Nat} (hn : n < (ct.bitsOf x).length) {y : List Symbol}
    (hscan : scan t.rct ((ct.bitsOf x).take n) [] [] = ([], y)) : y <+: x ∧ y.length < x.length := by
  have hwhole := h.legal.scan_eq_iff_parses.2 h.parses
  have hpre : y <+: x := by
    have := prefix_scan_snd t.rct ((ct.bitsOf x).drop n) [] y
    rw [← List.take_append_drop n (ct.bitsOf x), scan_append, hscan] at hwhole
    rwa [hwhole] at this
  refine ⟨hpre, lt_of_le_of_ne hpre.length_le fun heq => ?_⟩
  obtain ⟨-, hbits⟩ := h.legal.scan_eq_iff_parses.1 hscan
  rw [hpre.eq_of_length heq] at hbits
  have := congrArg List.length hbits
  rw [List.length_take] at this
  omega

/-- The outcome on the stream without its last byte, under the same table (R164): the header does not fit, or the scan
is cut. -/
theorem Packed.decoded_dropLast (h : Packed t ct x) (hx : x ≠ []) {s : State} (hv : s.tableValid = true)
    (hr : s.rct = t.rct)
    (hin : s.input = (toBytes (streamOf (padAmount (ct.bitsOf x).length) (ct.bitsOf x))).dropLast) :
    s.decoded = .error .corruptPadding ∨ ∃ y, s.decoded = .ok y ∧ y <+: x ∧ y.length < x.length := by
  have hpos : 0 < (ct.bitsOf x).length :=
    (List.length_pos_iff.2 hx).trans_le (h.parses.length_le h.legal.1 h.legal.ne_nil)
  have hlen : s.ilen = ((ct.bitsOf x).length + 7) / 8 := by
    rw [← length_input, hin, List.length_dropLast, length_toBytes_streamOf_eq, Nat.add_sub_cancel_left]
  have h0 : s.ilen ≠ 0 := by omega
  obtain ⟨hheader, hbody⟩ := body_of_stream h0 (hin ▸ List.dropLast_prefix _)
  by_cases hpad : 8 * (s.ilen - 1) < (s.ibufByte 0).toNat
  · exact .inl (by simp [State.decoded, hv, h0, hpad])
  rw [decoded_of_fits hv h0 (Nat.le_of_not_lt hpad)]
  split_ifs with hbuf
  · exact .inl rfl
  · have hscan : scan t.rct s.body [] [] = ([], (scan s.rct s.body [] []).2) :=
      hr ▸ Prod.ext (not_not.1 hbuf) rfl
    rw [hbody] at hscan ⊢
    exact .inr ⟨_, rfl, h.scan_take (by omega) hscan⟩

end

/-! ## The statements -/

/-- Settles O52: a `COMPRESS` leaves the text packed, and its output carried to the input decodes to the text. -/
theorem roundTripGivesTheTrimmedInput : Obligations.RoundTripGivesTheTrimmedInput := by
  refine ⟨fun s _ hx => ?_, fun s h0 => ?_⟩
  · exact ⟨compress s, _, rfl, rfl, decompress_of_ok (packed_compress hx).decoded_copy⟩
  · exact ⟨compress s, rfl, by rw [compress_blank h0]; rfl⟩

/-- Settles O54: the input cut by a byte is the stream without its last byte. -/
theorem truncationIsNeverSilent : Obligations.TruncationIsNeverSilent := by
  rintro s t s' hx ⟨⟩ hv hr hin
  have hpacked := packed_compress hx
  have hread : (List.range (compress s).olen).map (compress s).obufByte = (compress s).resultRead := by
    rw [State.resultRead, State.olenRead_of_noError hpacked.err]
  rw [hread, State.resultRead_of_resultIs hpacked.err hpacked.result] at hin
  refine ⟨decompress s', rfl, ?_⟩
  obtain hk | ⟨y, hy, hpre, hlt⟩ := hpacked.decoded_dropLast hx hv hr hin
  · exact .inl (decompress_of_error hk).1
  · obtain ⟨herr, -, hresult⟩ := decompress_of_ok hy
    exact .inr ⟨herr, y, hresult, hpre, hlt⟩

/-! ## The host script -/

theorem core_run_compress {s : State} {r : List HostAction} (hidle : s.phase = .idle)
    (hs : s.script = .command 0x01#8 :: r) (n : Nat) :
    Sys2Proof.core.run (n + 1) s = Sys2Proof.core.run n (compress { s with script := r }) :=
  core_run_succ (M := Sys2Proof.core) (step_command hidle hs) n

theorem core_run_decompress {s : State} {r : List HostAction} (hidle : s.phase = .idle)
    (hs : s.script = .command 0x02#8 :: r) (n : Nat) :
    Sys2Proof.core.run (n + 1) s = Sys2Proof.core.run n (decompress { s with script := r }) :=
  core_run_succ (M := Sys2Proof.core) (step_command hidle hs) n

theorem decompress_script (s : State) : (decompress s).script = s.script := by
  obtain ⟨-, -, -, -, -, hscript, -⟩ := decompress_frame s
  exact hscript

theorem compress_script (s : State) : (compress s).script = s.script := by
  rcases compress_cases s with ⟨-, u, hu, e⟩ | ⟨-, u, ct, -, hu, -, -, -, e⟩
  all_goals rw [e]; exact hu.script

theorem trimmedInput_load (s : State) (bs : List Byte) : (s.load bs).trimmedInput = bs.rdropWhile isWhite := by
  rw [trimmedInput_eq_rdropWhile, State.input_load]

/-- The script of `ROUNDTRIP` after its `COMPRESS` (R91): `READ`, `COPY`, `DECOMPRESS`, `READ`. -/
def afterCompress (r : List HostAction) : List HostAction :=
  .access .readResult :: .access .copy :: .command 0x02#8 :: .access .readResult :: r

theorem roundTripActions_append (bs : List Byte) (r : List HostAction) :
    roundTripActions bs ++ r = loadActions bs ++ .command 0x01#8 :: afterCompress r := by
  simp [roundTripActions, compressActions, afterCompress]

theorem core_run_afterCompress {t : State} {r : List HostAction} (hidle : t.phase = .idle)
    (hs : t.script = afterCompress r) :
    Sys2Proof.core.run 4 t = .next (hostAccess .readResult
      { decompress (hostAccess .copy (hostAccess .readResult { t with script := .access .readResult :: r })) with
        script := r }) := by
  rw [core_run_access hidle hs 3]
  refine (core_run_access (by exact hidle) rfl 2).trans ?_
  refine (core_run_decompress (by exact hidle) rfl 1).trans ?_
  exact core_run_access (decompress_phase _) (decompress_script _) 0

theorem State.status_of_success {s : State} (hd : s.done = true) (hv : s.tableValid = true) (he : s.err = .none) :
    s.status = 0x03#8 := by
  rw [State.status, hd, hv, he]; rfl

/-- What `READ` returns after a success. -/
theorem seen_readResult_of_success {s : State} {x : List Symbol} (hd : s.done = true) (hv : s.tableValid = true)
    (he : s.err = .none) (hresult : s.resultIs x) :
    (hostAccess .readResult s).seen.getLast? = some (.result 0x03#8 x.length x) := by
  obtain ⟨-, -, -, -, -, -, -, -, hread, -⟩ := hostAccessRights s 0 0 0x00#8
  rw [hread x he hresult, List.getLast?_concat, State.status_of_success hd hv he]

/-- The last read of the script is of the decoded text. -/
theorem Packed.core_run {t : State} {ct : CodeTable} {x : List Symbol} (h : Packed t ct x) {r : List HostAction}
    (hidle : t.phase = .idle) (hs : t.script = afterCompress r) :
    ∃ v, Sys2Proof.core.run 4 t = .next v ∧ v.script = r ∧
      v.seen.getLast? = some (.result 0x03#8 x.length x) := by
  have hread := (h.withScript (.access .readResult :: r)).readResult
  have hrun := core_run_afterCompress hidle hs
  obtain ⟨u, hu⟩ : ∃ u, u = hostAccess .readResult { t with script := .access .readResult :: r } := ⟨_, rfl⟩
  rw [← hu] at hread hrun
  obtain ⟨herr, hdone, holen, hobuf⟩ := decompress_of_ok hread.decoded_copy
  obtain ⟨-, -, -, -, hvalid, -⟩ := decompress_frame (hostAccess .copy u)
  exact ⟨_, hrun, rfl, seen_readResult_of_success hdone (hvalid.trans hread.tableValid) herr ⟨holen, hobuf⟩⟩

/-- Settles O53: `LOAD` makes the text the input, and the `COMPRESS` leaves it packed for the rest of the script. -/
theorem roundTripThroughTheHostScript : Obligations.RoundTripThroughTheHostScript := by
  intro s bs r hidle _ hs hx
  rw [roundTripActions_append] at hs
  obtain ⟨u, hu⟩ : ∃ u, u = ({ s with script := .command 0x01#8 :: afterCompress r } : State).load bs := ⟨_, rfl⟩
  have hrun : Sys2Proof.core.run (bs.length + 6) s = Sys2Proof.core.run 5 u :=
    hu ▸ core_run_loadActions hidle hs 5
  have hidle : u.phase = .idle := hu ▸ hidle
  have hscript : u.script = .command 0x01#8 :: afterCompress r := hu ▸ rfl
  have htrim : u.trimmedInput = bs.rdropWhile isWhite := hu ▸ trimmedInput_load _ bs
  rw [← htrim] at hx ⊢
  rw [hrun, core_run_compress hidle hscript]
  exact (packed_compress (s := { u with script := afterCompress r }) hx).core_run (compress_phase _) (compress_script _)

end Sys2Proof.Machine
end

section
/-!
PROOF. Errors (spec/60_exceptions.md): what an error leaves (R176, R177), the kinds ever written to `ERR` (R170 to
R175), and that no run of legal command words stops (R178, spec/70_reset_and_hazards.md R216).
-/

namespace Sys2Proof.Machine

/-! ## Precise errors (R176, R177) -/

/-- A `raise` inside a command leaves what outlives the command as it was when the command began. -/
theorem Inside.raise_precise {s u : State} (hu : Inside s u) (k : ErrKind) :
    (u.raise k).ibuf = s.ibuf ∧ (u.raise k).ilen = s.ilen ∧ (u.raise k).ct = s.ct ∧ (u.raise k).rct = s.rct ∧
      (u.raise k).tableValid = s.tableValid ∧ (u.raise k).done = false ∧ (u.raise k).outputUnspecified ∧
      (u.raise k).phase = .idle ∧ (u.raise k).script = s.script ∧ (u.raise k).seen = s.seen :=
  ⟨hu.ibuf, hu.ilen, hu.ct, hu.rct, hu.tableValid, hu.done, fun _ => rfl, rfl, hu.script, hu.seen⟩

theorem compress_eq_raise {s : State} (h : (compress s).err ≠ .none) :
    ∃ u, Inside s u ∧ compress s = u.raise .emptyAlphabet := by
  rcases compress_cases s with ⟨-, hraise⟩ | ⟨-, u, ct, -, hu, -, -, -, e⟩
  · exact hraise
  · rw [e] at h
    exact absurd hu.err h

theorem decompress_eq_raise {s : State} (h : (decompress s).err ≠ .none) :
    ∃ u k, Inside s u ∧ decompress s = u.raise k := by
  obtain ⟨u, hu, ⟨-, e⟩ | ⟨-, e⟩ | ⟨-, e⟩⟩ := decompress_outcome s
  · exact ⟨u, _, hu, e⟩
  · exact ⟨u, _, hu, e⟩
  · rw [e] at h
    exact absurd hu.err h

/-- Settles O45: a command that ends with an error ends in a `raise`, before it wrote anything that outlives it. -/
theorem errorsArePrecise : Obligations.ErrorsArePrecise := by
  intro s i hi
  simp only [List.mem_cons, List.not_mem_nil, or_false] at hi
  obtain rfl | rfl := hi
  · refine ⟨compress s, rfl, fun herr => ?_⟩
    obtain ⟨u, hu, e⟩ := compress_eq_raise herr
    exact e ▸ hu.raise_precise _
  · refine ⟨decompress s, rfl, fun herr => ?_⟩
    obtain ⟨u, k, hu, e⟩ := decompress_eq_raise herr
    exact e ▸ hu.raise_precise k

/-! ## What a step does to `ERR` and to the host's script -/

/-- The kinds the block writes to `ERR`: all but the reserved one (R174). -/
def writtenKinds : List ErrKind := [.none, .emptyAlphabet, .missingCodeTable, .corruptPadding]

/-- What every instruction and every host access respects: the rest of the host's script stays, and `ERR` stays or gets
a kind the block writes. -/
structure MoveFrame (s t : State) : Prop where
  script : t.script = s.script
  err : t.err = s.err ∨ t.err ∈ writtenKinds

theorem moveFrame_compress (s : State) : MoveFrame s (compress s) := by
  refine ⟨compress_script s, .inr ?_⟩
  obtain e | e := compress_err_cases s
  · rw [e]; decide
  · rw [e]; decide

theorem moveFrame_decompress (s : State) : MoveFrame s (decompress s) := by
  refine ⟨decompress_script s, .inr ?_⟩
  obtain ⟨u, hu, ⟨-, e⟩ | ⟨-, e⟩ | ⟨-, e⟩⟩ := decompress_outcome s
  · rw [e, State.raise_err]; decide
  · rw [e, State.raise_err]; decide
  · have herr : (commitDecompress u).err = .none := hu.err
    rw [e, herr]; decide

theorem moveFrame_ePack (s : State) : MoveFrame s (ePack s) := by
  unfold ePack
  exact ⟨by simp, .inl (by simp)⟩

/-- The form of the phases with an error condition: a `raise`, or the phase's effect. -/
theorem moveFrame_raise_ite {s t u : State} {c : Prop} [Decidable c] {k : ErrKind} (hu : u.script = s.script)
    (hk : k ∈ writtenKinds) (ht : MoveFrame s t) : MoveFrame s (if c then u.raise k else t) := by
  split_ifs
  · exact ⟨hu, .inr hk⟩
  · exact ht

theorem exec_moveFrame (i : Instr) (s : State) : ∃ t, exec i s = .next t ∧ MoveFrame s t := by
  cases i with
  | compress => exact ⟨_, rfl, moveFrame_compress s⟩
  | decompress => exact ⟨_, rfl, moveFrame_decompress s⟩
  | ePack => exact ⟨_, rfl, moveFrame_ePack s⟩
  | eBuild | dCheck | dHdr | dStrip | dScan =>
    exact ⟨_, rfl, moveFrame_raise_ite rfl (by decide) ⟨rfl, .inl rfl⟩⟩
  | idle | eTrim | eFreq | eCode | dExpand => exact ⟨_, rfl, rfl, .inl rfl⟩

theorem moveFrame_hostAccess (a : HostAccess) (s : State) : MoveFrame s (hostAccess a s) := by
  by_cases ha : a = .reset
  · exact ha ▸ ⟨rfl, .inr List.mem_cons_self⟩
  · rw [hostAccess_frame ha]
    exact ⟨rfl, .inl rfl⟩

/-- Everything a step can do, in any phase: go on with a rest of the host's script, or refuse a reserved command word of
the script. -/
theorem step_cases (s : State) :
    (∃ r t, r <:+ s.script ∧ MoveFrame { s with script := r } t ∧ step s = .next t) ∨
    (∃ c, .command c ∈ s.script ∧ decode (.cmd8 c) = none ∧ step s = .refused (.reservedWord (.cmd8 c))) := by
  by_cases hidle : s.phase = .idle
  · match hs : s.script with
    | [] => exact .inl ⟨[], s, List.suffix_rfl, ⟨hs, .inl rfl⟩, step_quiet hidle hs⟩
    | .access a :: r => exact .inl ⟨r, _, List.suffix_cons _ r, moveFrame_hostAccess a _, step_access hidle hs⟩
    | .command c :: r =>
      have hstep := step_command hidle hs
      cases hd : decode (.cmd8 c) with
      | none =>
        rw [hd] at hstep
        exact .inr ⟨c, List.mem_cons_self, hd, hstep⟩
      | some i =>
        rw [hd] at hstep
        obtain ⟨t, ht, hframe⟩ := exec_moveFrame i { s with script := r }
        exact .inl ⟨r, t, List.suffix_cons _ r, hframe, hstep.trans ht⟩
  · obtain ⟨t, ht, hframe⟩ := exec_moveFrame (phaseInstr s.phase) s
    exact .inl ⟨s.script, t, List.suffix_rfl, hframe, (step_busy hidle).trans ht⟩

theorem step_err {s t : State} (h : step s = .next t) : t.err = s.err ∨ t.err ∈ writtenKinds := by
  obtain ⟨r, u, -, hu, e⟩ | ⟨c, -, -, e⟩ := step_cases s
  all_goals rw [e] at h; cases h
  exact hu.err

/-- Settles O48: the reserved kind is none of those a step writes. -/
theorem ioFailureIsNeverWritten : Obligations.IoFailureIsNeverWritten := by
  intro s t hs hstep hio
  obtain hsame | hwritten := step_err hstep
  · exact hs (hsame.symm.trans hio)
  · rw [hio] at hwritten
    exact absurd hwritten (by decide)

/-! ## Runs of legal command words (R178, R216) -/

theorem wellFormed_of_suffix {l r : List HostAction} (h : r <:+ l) (hl : Script.wellFormed l = true) :
    Script.wellFormed r = true :=
  List.all_eq_true.2 fun a ha => List.all_eq_true.1 hl a (h.subset ha)

/-- The only stop is the refusal of a reserved word, and a step puts no new word into the script. -/
theorem step_next_of_wellFormed {s : State} (hs : Script.wellFormed s.script = true) :
    ∃ t, step s = .next t ∧ Script.wellFormed t.script = true := by
  obtain ⟨r, t, hr, ht, e⟩ | ⟨c, hc, hd, -⟩ := step_cases s
  · refine ⟨t, e, ?_⟩
    rw [ht.script]
    exact wellFormed_of_suffix hr hs
  · have hlegal : (decode (.cmd8 c)).isSome = true := List.all_eq_true.1 hs _ hc
    simp [hd] at hlegal

/-- Settles O51: each step goes on, to a state whose script is again legal. -/
theorem legalScriptsNeverStop : Obligations.LegalScriptsNeverStop := by
  intro s hs n
  induction n generalizing s with
  | zero => exact ⟨s, rfl⟩
  | succ n ih =>
    obtain ⟨t, hstep, ht⟩ := step_next_of_wellFormed hs
    obtain ⟨u, hu⟩ := ih t ht
    exact ⟨u, (core_run_succ (M := Sys2Proof.core) hstep n).trans hu⟩

end Sys2Proof.Machine
end

section
/-!
PROOF. The block right after reset (spec/70_reset_and_hazards.md R201): what the host reads, and how each of the two
commands ends there.
-/

namespace Sys2Proof.Machine

/-! ## The state after reset -/

/-- Reset fixes everything but the host's own fields and the count of free values drawn (R43, R200). -/
theorem eq_reset_of_justReset {r : State} (h : r = State.reset ∨ ∃ s, r = hostAccess .reset s) :
    ∃ script seen draws, r = { State.reset with script := script, seen := seen, draws := draws } := by
  obtain rfl | ⟨s, rfl⟩ := h
  · exact ⟨[], [], 0, rfl⟩
  · exact ⟨s.script, s.seen, s.draws + 1, rfl⟩

/-! ## The two errors -/

/-- With no table held and `DONE` clear, `STATUS` shows the error kind alone (R26). -/
theorem State.status_of_error {s : State} {k : ErrKind} (he : s.err = k) (hd : s.done = false)
    (hv : s.tableValid = false) : s.status = BitVec.ofNat 8 (4 * k.code) := by
  simp [State.status, he, hd, hv]

theorem exec_compress_of_blank {s : State} (h0 : s.trimmedInput = []) (hv : s.tableValid = false) :
    ∃ t, exec .compress s = .next t ∧ t.err = .emptyAlphabet ∧ t.status = 0x04#8 := by
  obtain ⟨t, ht, herr, hdone, -, -, -, -, hvalid, -⟩ := compressOfABlankText.2 s h0
  exact ⟨t, ht, herr, State.status_of_error herr hdone (hvalid.trans hv)⟩

theorem exec_decompress_of_noTable {s : State} (hv : s.tableValid = false) :
    ∃ t, exec .decompress s = .next t ∧ t.err = .missingCodeTable ∧ t.status = 0x08#8 := by
  obtain ⟨herr, hdone, -⟩ := decompress_of_error (s := s) (if_pos hv)
  exact ⟨decompress s, rfl, herr, State.status_of_error herr hdone ((decompress_tableValid s).trans hv)⟩

/-- Settles O9: the reads give R43's values, `COMPRESS` meets an empty input, and `DECOMPRESS` meets no table. -/
theorem commandsRightAfterReset : Obligations.CommandsRightAfterReset := by
  intro r hr
  obtain ⟨script, seen, draws, rfl⟩ := eq_reset_of_justReset hr
  exact ⟨rfl, rfl, rfl, rfl, fun _ => rfl, fun _ => rfl, exec_compress_of_blank rfl rfl,
    exec_decompress_of_noTable rfl⟩

end Sys2Proof.Machine
end
